-- ==== Sys2Proof/Word.lean ====
section
/-! DEFINITION. The word types of the block: the byte of its storage and the four port formats. -/

namespace Sys2Proof

/-- The data unit, "the byte of 8 bits, an unsigned value in 0 to 255" (R7). -/
abbrev Byte := BitVec 8

/-- A command word `CW` or a response word `RW` of port M, 32 bits (R61, R62). -/
abbrev Word := BitVec 32

/-- An event vector `EV` of port I, 10 bits (R63). -/
abbrev EventVec := BitVec 10

/-- An output vector `OUT` of port I, 10 bits (R64). -/
abbrev OutVec := BitVec 10

end Sys2Proof
end

