-- ==== Sys2Proof/Config.lean ====
section
/-! DEFINITION. What one DRBF fixes for its lifetime: the two instances, the parameter triple, and the
storage bytes the spec leaves unspecified at reset. Which triples are valid is said in Machine/Ops.lean. -/

namespace Sys2Proof

/-- The two RingBuffer instances (R21): `rx` is the ReceiveChannel, `tx` the TransmitChannel. -/
inductive Channel where
  | rx
  | tx
  deriving DecidableEq, Repr

/-- The parameter triple `(C_RX, C_TX, W)` of R4. `w = none` is the width "unbounded" that R4 permits.
The triple is configuration and no step writes it; State carries it so that one step function
serves every configuration (DESIGN CHOICE, safe: notes/assumptions/1.md). -/
structure Params where
  /-- `C_RX`, the capacity in bytes of the receive RingBuffer. -/
  cRx : Nat
  /-- `C_TX`, the capacity in bytes of the transmit RingBuffer. -/
  cTx : Nat
  /-- `W`, the width in bits of each cursor. -/
  w : Option Nat
  deriving DecidableEq, Repr

/-- The triple of the one named reset state, vector CF-1 of 95_test_vectors.md.
The spec gives the capacities no value and recommends `W = 32` (R4).
DESIGN CHOICE, unsafe: notes/assumptions/2.md; no statement rests on it. -/
def Params.reference : Params := ⟨4, 2, some 32⟩

/-- FREE VALUE: the byte a slot of an instance's storage holds at reset, for each draw (R30, V1: "any
value (a draw per slot)"). It has no body, so nothing can evaluate it. notes/assumptions/3.md. -/
opaque Config.resetByte : Nat → Channel → Nat → Byte

end Sys2Proof
end

