-- ==== Sys2Proof/Machine/State.lean ====
section
/-! DEFINITION. The state: the block's own (R20 to R33), what its two ports last produced, the two
other agents of R8 (MAIN and the reference UART) as plain data, and which of them moves next. -/

namespace Sys2Proof.Machine

/-- One storage array: the slots written since reset, as (address, byte), in one canonical form
(Memory.wf). An unlisted slot has NO LISTED VALUE: it holds its unspecified reset byte. -/
abbrev Memory := List Host.Cell

/-- The RingBuffer record (R20). The capacity is configuration; the cursors are registers of `W`
bits, held as numbers that never pass `2^W - 1` (R25, and the invariant that says so). -/
structure RingBuffer where
  /-- `B.storage`, addresses 0 to `B.C - 1`. -/
  storage : Memory
  /-- `B.wc`, "the next position to be written ... counted without modulo". -/
  wc : Nat
  /-- `B.rc`, "the next position to be read ... counted without modulo". -/
  rc : Nat
  deriving DecidableEq, Repr

/-- The reference environment's UART (R146): environment, not block state. -/
structure Uart where
  /-- `rxp`: a received byte not yet read. -/
  rxp : Option Byte
  /-- `txb`: the transmitter is busy. -/
  txb : Bool
  /-- `line`: the bytes transmitted, oldest first. -/
  line : List Byte
  deriving DecidableEq, Repr

/-- What MAIN is to do: a command word, or a pseudo-instruction of R71, expanded command by command. -/
inductive MainItem where
  /-- One command word, any word at all. -/
  | word (cw : Word)
  /-- `WRITE_BYTES b1, ..., bn`. -/
  | writeBytes (bs : List Byte)
  /-- `SPINPUSH b`. -/
  | spinPush (b : Byte)
  /-- `WAITFLAG`. -/
  | waitFlag
  /-- `DRAIN`. -/
  | drain
  /-- `CONSUME`. -/
  | consume
  /-- `HIST`, before its `LEN RX`. -/
  | hist
  /-- The rest of a `HIST` that read `n`: `RXPEEK i` to `RXPEEK n-1`, with the bytes answered `OK` so far. -/
  | histPeeks (i n : Nat) (seen : List Byte)
  deriving DecidableEq, Repr

/-- The MAIN agent (R8, R73): "the position of MAIN in its own command sequence is state of MAIN, not
of the block" (R28). -/
structure MainContext where
  /-- What MAIN still has to do; the head is what it presents on port M (at most one command
  outstanding, R73), and the head stays until it is accepted. -/
  prog : List MainItem
  /-- The responses MAIN has received, oldest first. -/
  heard : List Word
  /-- What `HIST` has emitted: a byte value and its count (R119). -/
  emitted : List (Byte × Nat)
  deriving DecidableEq, Repr

/-- Who moves next (R8, R142): any interleaving at transition boundaries is a list of turns. -/
inductive Turn where
  /-- MAIN presents its command on port M. -/
  | main
  /-- An InterruptBridge invocation with this vector, from any environment (R137: a test bench may inject it). -/
  | event (ev : EventVec)
  /-- The reference environment's invocation, where its firing condition holds (R146). -/
  | fire
  /-- The reference UART receives a byte (R146). -/
  | arrive (b : Byte)
  /-- The reference UART ends a transmission (R146). -/
  | txdone
  deriving DecidableEq, Repr

/-- The machine. -/
structure State where
  /-- The parameter triple (R4); no step writes it. -/
  cfg : Params
  /-- MODEL'S OWN: which draw of the unspecified reset bytes this run has (R30). -/
  draw : Nat
  /-- The ReceiveChannel (R21). -/
  rx : RingBuffer
  /-- The TransmitChannel (R21). -/
  tx : RingBuffer
  /-- `FLAG`, the signal flag (R26). -/
  flag : Bool
  /-- `TXIE`, the transmit-interrupt enable, also the level output `txie` (R27). -/
  txie : Bool
  /-- Port M: the response word of the last command presented, or none where it is held (or none was presented). -/
  rw : Option Word
  /-- Port I: the output vector of the last invocation, or none before the first. -/
  out : Option OutVec
  /-- The MAIN agent. -/
  main : MainContext
  /-- The reference UART. -/
  uart : Uart
  /-- MODEL'S OWN: the turns to come, first to last. -/
  sched : List Turn
  deriving DecidableEq, Repr

/-- Why the machine stops. -/
inductive Fault where
  /-- `CursorOverflow` (R134): raised by `TXPUSH`, `TXW` and the RX branch, where the write cursor to be
  incremented equals `2^W - 1`. Nothing is written and no later transition is defined. Safe. -/
  | cursorOverflow
  deriving DecidableEq, Repr

/-- Why there is no meaning. -/
inductive Refusal where
  /-- Raised only by an arm of exec that has no meaning yet. Safe. -/
  | notModelled (mnemonic : String)
  /-- `ConfigError` (R6, R135): raised by construction and by step where the parameter triple is
  invalid: "no DRBF exists for it and no rule applies". Safe. -/
  | configError
  deriving DecidableEq, Repr

/-- An empty channel with nothing written (R30). -/
def RingBuffer.atReset : RingBuffer := ⟨[], 0, 0⟩

/-- The reference UART at reset (R146). -/
def Uart.atReset : Uart := ⟨none, false, []⟩

/-- MAIN with nothing to do. -/
def MainContext.atReset : MainContext := ⟨[], [], []⟩

/-- The state after reset (R30, R160, R161) of the block with these parameters, for one draw of the
unspecified storage bytes. -/
def State.resetFor (p : Params) (draw : Nat) : State :=
  { cfg := p, draw := draw, rx := .atReset, tx := .atReset, flag := false, txie := false,
    rw := none, out := none, main := .atReset, uart := .atReset, sched := [] }

/-- The one named reset state (the triple and the draw are DESIGN CHOICE: notes/assumptions/2.md, 3.md). -/
def State.reset : State := State.resetFor Params.reference 0

end Sys2Proof.Machine
end

