-- ==== Sys2Proof/Machine/Flags.lean ====
section
/-! DEFINITION. The two one-bit registers and everything that writes them (R26, R27, R33). -/

namespace Sys2Proof.Machine

/-- `FLAG <- 1`, by the RX branch only (R111). -/
def setFlag (s : State) : State := { s with flag := true }

/-- `FLAG <- 0`, by `FLAGCLR` only (R115). -/
def clearFlag (s : State) : State := { s with flag := false }

/-- `TXIE <- 1`, `set_transmit_interrupt_enabled(true)`, by an accepted `TXPUSH` or `TXW` (R101, R102). -/
def enableTx (s : State) : State := { s with txie := true }

/-- `TXIE <- 0`, `set_transmit_interrupt_enabled(false)`, by the TX branch (R103). -/
def disableTx (s : State) : State := { s with txie := false }

end Sys2Proof.Machine
end

