-- ==== Sys2Proof/Syntax.lean ====
section
/-! DEFINITION. The syntax: one constructor per row of spec/opcode_table.json. -/

namespace Sys2Proof

/-- What the block executes (R60, R66): the nine port-M commands and the four port-I event classes.
The bits an event class ignores (`x` in R66) are no operand: they are "any value, no effect" (R63). -/
inductive Instr where
  /-- `TXPUSH data` (R101). -/
  | txpush (data : Byte)
  /-- `TXW data` (R102). -/
  | txw (data : Byte)
  /-- `RXPOP` (R112). -/
  | rxpop
  /-- `RXPEEK idx` (R113); `idx` is "a number 0 to 16777215" (R70), which WellFormed checks. -/
  | rxpeek (idx : Nat)
  /-- `EMPTY ch` (R125). -/
  | empty (ch : Channel)
  /-- `FULL ch` (R126). -/
  | full (ch : Channel)
  /-- `LEN ch` (R127). -/
  | len (ch : Channel)
  /-- `FLAGRD` (R114). -/
  | flagrd
  /-- `FLAGCLR` (R115). -/
  | flagclr
  /-- `IRQ.NONE`: both predicates false (R152). -/
  | irqNone
  /-- `IRQ.TX`: the TX branch alone (R103). -/
  | irqTx
  /-- `IRQ.RX`: the RX branch alone, with the byte `hardware_read_byte()` returns (R111). -/
  | irqRx (rxData : Byte)
  /-- `IRQ.RXTX`: the RX branch, then the TX branch (R138, R139). -/
  | irqRxTx (rxData : Byte)
  deriving DecidableEq, Repr

/-- The instruction is one of the nine port-M commands, issued by MAIN (R144). -/
def Instr.isCommand : Instr → Bool
  | .txpush _ | .txw _ | .rxpop | .rxpeek _ | .empty _ | .full _ | .len _ | .flagrd | .flagclr => true
  | .irqNone | .irqTx | .irqRx _ | .irqRxTx _ => false

/-- The instruction is one of the three status commands (R125 to R128). -/
def Instr.isStatus : Instr → Bool
  | .empty _ | .full _ | .len _ => true
  | .txpush _ | .txw _ | .rxpop | .rxpeek _ | .flagrd | .flagclr => false
  | .irqNone | .irqTx | .irqRx _ | .irqRxTx _ => false

end Sys2Proof
end

