-- ==== Sys2Proof/WellFormed.lean ====
section
/-! DEFINITION. Which instructions the encoding can hold. -/

namespace Sys2Proof

/-- The one operand whose Lean type is wider than its field is `idx`: `CW[23:0]`, "an unsigned logical
offset 0 to 2^24 - 1" (R65). Every other operand fits its field by its type. -/
def Instr.wellFormed : Instr → Bool
  | .rxpeek idx => decide (idx < 2 ^ 24)
  | .txpush _ | .txw _ | .rxpop | .empty _ | .full _ | .len _ | .flagrd | .flagclr => true
  | .irqNone | .irqTx | .irqRx _ | .irqRxTx _ => true

end Sys2Proof
end

