-- ==== Sys2Proof/Decode.lean ====
section
/-! DEFINITION. The decoder of both ports, total on every word and rejecting by name, and the encoder
written from the same tables (30_encoding.md R61, R63, R65 to R69). -/

namespace Sys2Proof

/-! ## Fields of the command word (R61) -/

/-- `op = CW[31:28]`. -/
def cwOp (cw : Word) : BitVec 4 := cw.extractLsb' 28 4
/-- `ch = CW[27]`: false is `RX`, true is `TX`. -/
def cwCh (cw : Word) : Bool := cw.getLsbD 27
/-- `rsv = CW[26:24]`, must be 0. -/
def cwRsv (cw : Word) : BitVec 3 := cw.extractLsb' 24 3
/-- `arg = CW[23:0]`. -/
def cwArg (cw : Word) : BitVec 24 := cw.extractLsb' 0 24
/-- `data = CW[7:0]` of `TXPUSH` and `TXW` (R65). -/
def cwData (cw : Word) : Byte := cw.extractLsb' 0 8
/-- `CW[23:8]`, must be zero in `TXPUSH` and `TXW` (R61). -/
def cwPad (cw : Word) : BitVec 16 := cw.extractLsb' 8 16
/-- `idx = CW[23:0]` of `RXPEEK`, "an unsigned logical offset" (R65). -/
def cwIdx (cw : Word) : Nat := (cwArg cw).toNat
/-- The instance `ch` selects: 0 is `RX`, 1 is `TX` (R61). -/
def cwChannel (cw : Word) : Channel := if cwCh cw then .tx else .rx

/-! ## Fields of the event vector (R63) -/

/-- `rx_full = EV[9]`. -/
def evRxFull (ev : EventVec) : Bool := ev.getLsbD 9
/-- `tx_ready = EV[8]`. -/
def evTxReady (ev : EventVec) : Bool := ev.getLsbD 8
/-- `rx_data = EV[7:0]`. -/
def evRxData (ev : EventVec) : Byte := ev.extractLsb' 0 8

/-! ## The opcode map (R66) -/

/-- One row of the opcode map: a word selects it iff `(CW AND mask) == match`. -/
structure OpRow where
  mask : Word
  pattern : Word
  deriving DecidableEq, Repr

def OpRow.hits (r : OpRow) (cw : Word) : Bool := cw &&& r.mask == r.pattern

def rowTxpush  : OpRow := ⟨0xFFFFFF00#32, 0x18000000#32⟩
def rowTxw     : OpRow := ⟨0xFFFFFF00#32, 0x28000000#32⟩
def rowRxpop   : OpRow := ⟨0xFFFFFFFF#32, 0x30000000#32⟩
def rowRxpeek  : OpRow := ⟨0xFF000000#32, 0x40000000#32⟩
def rowEmpty   : OpRow := ⟨0xF7FFFFFF#32, 0x50000000#32⟩
def rowFull    : OpRow := ⟨0xF7FFFFFF#32, 0x60000000#32⟩
def rowLen     : OpRow := ⟨0xF7FFFFFF#32, 0x70000000#32⟩
def rowFlagrd  : OpRow := ⟨0xFFFFFFFF#32, 0x80000000#32⟩
def rowFlagclr : OpRow := ⟨0xFFFFFFFF#32, 0x90000000#32⟩

/-- The nine rows, in the table's order. -/
def opRows : List OpRow :=
  [rowTxpush, rowTxw, rowRxpop, rowRxpeek, rowEmpty, rowFull, rowLen, rowFlagrd, rowFlagclr]

/-! ## Decoding -/

/-- Why a command word is illegal: the cases (a) to (f) of R67. -/
inductive Illegal where
  /-- (a) `op` = 0x0 or `op` in 0xA to 0xF. -/
  | opUnassigned
  /-- (b) `rsv` not 0. -/
  | reservedBits
  /-- (c) `TXPUSH` or `TXW` with `ch = 0` or `CW[23:8]` not 0. -/
  | pushForm
  /-- (d) `RXPOP` or `RXPEEK` with `ch = 1`, or `RXPOP` with `arg` not 0. -/
  | popPeekForm
  /-- (e) a status command with `arg` not 0. -/
  | statusForm
  /-- (f) `FLAGRD` or `FLAGCLR` with `ch = 1` or `arg` not 0. -/
  | flagForm
  deriving DecidableEq, Repr

/-- What the decoder answers. -/
inductive Decoded where
  | instr (i : Instr)
  | illegal (why : Illegal)
  deriving DecidableEq, Repr

/-- The case of R67 that a word matching no row falls under, the first in the rule's order. -/
def illegalCase (cw : Word) : Illegal :=
  if cwOp cw = 0x0#4 ∨ 0xA#4 ≤ cwOp cw then .opUnassigned
  else if cwRsv cw ≠ 0#3 then .reservedBits
  else if cwOp cw ≤ 0x2#4 then .pushForm
  else if cwOp cw ≤ 0x4#4 then .popPeekForm
  else if cwOp cw ≤ 0x7#4 then .statusForm
  else .flagForm

/-- Port M: compare the word against the nine rows, "on a match extract the operands by rule R65",
otherwise the word is illegal (R68). -/
def decodeCommand (cw : Word) : Decoded :=
  if rowTxpush.hits cw then .instr (.txpush (cwData cw))
  else if rowTxw.hits cw then .instr (.txw (cwData cw))
  else if rowRxpop.hits cw then .instr .rxpop
  else if rowRxpeek.hits cw then .instr (.rxpeek (cwIdx cw))
  else if rowEmpty.hits cw then .instr (.empty (cwChannel cw))
  else if rowFull.hits cw then .instr (.full (cwChannel cw))
  else if rowLen.hits cw then .instr (.len (cwChannel cw))
  else if rowFlagrd.hits cw then .instr .flagrd
  else if rowFlagclr.hits cw then .instr .flagclr
  else .illegal (illegalCase cw)

/-- Port I: the event class is `EV[9:8]`; "no `EV` is refused" (R66, R68). -/
def decodeEvent (ev : EventVec) : Instr :=
  match evRxFull ev, evTxReady ev with
  | false, false => .irqNone
  | false, true  => .irqTx
  | true,  false => .irqRx (evRxData ev)
  | true,  true  => .irqRxTx (evRxData ev)

/-- A word on one of the two ports (R60). -/
inductive PortWord where
  | m (cw : Word)
  | i (ev : EventVec)
  deriving DecidableEq, Repr

/-- The decoder of the block: each port's words by that port's format. -/
def decode : PortWord → Decoded
  | .m cw => decodeCommand cw
  | .i ev => .instr (decodeEvent ev)

/-! ## Encoding, from the same tables -/

/-- A command word from its four fields (R61). -/
def commandWord (op : BitVec 4) (ch : Bool) (arg : BitVec 24) : Word :=
  op ++ BitVec.ofBool ch ++ 0#3 ++ arg

/-- An event vector from its three fields (R63). -/
def eventVector (rxFull txReady : Bool) (rxData : Byte) : EventVec :=
  BitVec.ofBool rxFull ++ BitVec.ofBool txReady ++ rxData

/-- "`RX` assembles to `ch = 0` and `TX` to `ch = 1`" (R70). -/
def channelBit : Channel → Bool
  | .rx => false
  | .tx => true

/-- The word of an instruction. The ignored bits of `IRQ.NONE` and `IRQ.TX` "assemble to 0" (R70). -/
def encode : Instr → PortWord
  | .txpush d   => .m (commandWord 0x1#4 true (d.setWidth 24))
  | .txw d      => .m (commandWord 0x2#4 true (d.setWidth 24))
  | .rxpop      => .m (commandWord 0x3#4 false 0#24)
  | .rxpeek idx => .m (commandWord 0x4#4 false (BitVec.ofNat 24 idx))
  | .empty ch   => .m (commandWord 0x5#4 (channelBit ch) 0#24)
  | .full ch    => .m (commandWord 0x6#4 (channelBit ch) 0#24)
  | .len ch     => .m (commandWord 0x7#4 (channelBit ch) 0#24)
  | .flagrd     => .m (commandWord 0x8#4 false 0#24)
  | .flagclr    => .m (commandWord 0x9#4 false 0#24)
  | .irqNone    => .i (eventVector false false 0#8)
  | .irqTx      => .i (eventVector false true 0#8)
  | .irqRx d    => .i (eventVector true false d)
  | .irqRxTx d  => .i (eventVector true true d)

/-! ## The opcode table's words -/

/-- The port whose words have this width in the opcode table: 32 bits is port M (M-format), 10 bits
(two whole bytes) is port I (E-format). A value above the port's width is no word of it.
The words are "single values ... not byte sequences" (R41), so no byte order enters. -/
def tablePortWord (nbits w : Nat) : Option PortWord :=
  if nbits ≤ 16 then (if w < 2 ^ 10 then some (.i (BitVec.ofNat 10 w)) else none)
  else (if w < 2 ^ 32 then some (.m (BitVec.ofNat 32 w)) else none)

/-- What the decoder reads from a word numbered as spec/opcode_table.json numbers it. -/
def decodeTableWord (nbits w : Nat) : Option Instr :=
  match tablePortWord nbits w with
  | some pw =>
    match decode pw with
    | .instr i => some i
    | .illegal _ => none
  | none => none

end Sys2Proof
end

