-- ==== Sys2Proof/Machine/Operands.lean ====
section
/-! DEFINITION. Results: the R-format and the O-format, put together and taken apart (R62, R64, R65). -/

namespace Sys2Proof.Machine

/-- The four statuses of R62 and R130. -/
inductive Status where
  | ok
  | overflow
  | noValue
  | illegal
  deriving DecidableEq, Repr

/-- The status code, `RW[31:28]` (R62). -/
def Status.code : Status → BitVec 4
  | .ok => 0#4
  | .overflow => 1#4
  | .noValue => 2#4
  | .illegal => 3#4

/-- `RW = {s[3:0], 0b0000, zext_24(v)}` (R62). -/
def responseWord (st : Status) (v : BitVec 24) : Word := st.code ++ 0#4 ++ v

/-- A byte as a result, "in `RW[7:0]`" (R62). -/
def byteValue (b : Byte) : BitVec 24 := b.setWidth 24

/-- A boolean as a result, "in `RW[0]` (1 = true)" (R62). -/
def boolValue (b : Bool) : BitVec 24 := if b then 1#24 else 0#24

/-- An occupied length as a result; it "always fits" by R5 (R62, R65). -/
def lenValue (n : Nat) : BitVec 24 := BitVec.ofNat 24 n

/-- `RW[31:28]`. -/
def rwStatus (rw : Word) : BitVec 4 := rw.extractLsb' 28 4
/-- `RW[27:24]`, always 0. -/
def rwZero (rw : Word) : BitVec 4 := rw.extractLsb' 24 4
/-- `RW[23:0]`. -/
def rwValue (rw : Word) : BitVec 24 := rw.extractLsb' 0 24

/-- `OUT` from the collaborator calls an invocation made: whether `hardware_read_byte` was called, and
the byte `hardware_write_byte` was called with, if it was (R64). -/
def outVector (rd : Bool) (written : Option Byte) : OutVec :=
  BitVec.ofBool rd ++ BitVec.ofBool written.isSome ++ written.getD 0#8

/-- `rd = OUT[9]`. -/
def outRd (o : OutVec) : Bool := o.getLsbD 9
/-- `wr = OUT[8]`. -/
def outWr (o : OutVec) : Bool := o.getLsbD 8
/-- `wdata = OUT[7:0]`. -/
def outWdata (o : OutVec) : Byte := o.extractLsb' 0 8

end Sys2Proof.Machine
end

