-- ==== Sys2Proof/Machine/Ops.lean ====
section
/-! DEFINITION. The shared operations: parameters, storage, the seven RingBuffer primitives
(40_ringbuffer_primitives.md), the responses of port M, and the InterruptBridge invocation, which is
this hardware's exception entry and return (60_exceptions.md). -/

namespace Sys2Proof

/-! ## Parameters (R4, R5) -/

/-- `B.C` (R21). -/
def Params.capacity (p : Params) : Channel → Nat
  | .rx => p.cRx
  | .tx => p.cTx

/-- Both capacities are at most `2^W - 1`, where `W` is finite (R5). -/
def Params.fitsCursor (p : Params) : Bool :=
  match p.w with
  | none => true
  | some w => decide (p.cRx ≤ 2 ^ w - 1) && decide (p.cTx ≤ 2 ^ w - 1)

/-- The configuration is valid: all the clauses of R5. -/
def Params.valid (p : Params) : Bool :=
  decide (1 ≤ p.cTx) && decide (1 ≤ p.cRx) && decide (p.cTx < p.cRx)
    && decide (p.cRx ≤ 2 ^ 24 - 1) && decide (p.cTx ≤ 2 ^ 24 - 1) && p.fitsCursor

/-- The cursor value is the bound `2^W - 1` of R25; there is none where `W` is unbounded. -/
def Params.isBound (p : Params) (cursor : Nat) : Bool :=
  match p.w with
  | none => false
  | some w => cursor == 2 ^ w - 1

namespace Machine

/-! ## Storage (R40 to R43) -/

/-- The byte listed at an address, if one is. -/
def Memory.read : Memory → Nat → Option Byte
  | [], _ => none
  | (k, b) :: m, a => if k = a then some b else Memory.read m a

/-- List a byte at an address, keeping the addresses in rising order. -/
def Memory.write : Memory → Nat → Byte → Memory
  | [], a, v => [(a, v)]
  | (k, b) :: m, a, v =>
    if a < k then (a, v) :: (k, b) :: m
    else if a = k then (a, v) :: m
    else (k, b) :: Memory.write m a v

/-- The canonical form: addresses strictly rising. An unlisted address has no listed value, so no
entry equals one (notes/assumptions/3.md). -/
abbrev Memory.wf (m : Memory) : Prop := m.Pairwise (fun x y => x.1 < y.1)

/-- Every listed address is in the space 0 to `c - 1` (R40). -/
abbrev Memory.within (c : Nat) (m : Memory) : Prop := ∀ x ∈ m, x.1 < c

/-- The instance `B`. -/
def State.buf (s : State) : Channel → RingBuffer
  | .rx => s.rx
  | .tx => s.tx

/-- Write the whole record of an instance. -/
def State.setBuf (s : State) (ch : Channel) (b : RingBuffer) : State :=
  match ch with
  | .rx => { s with rx := b }
  | .tx => { s with tx := b }

/-- `p mod B.C`, the slot of a logical position (R24). -/
def State.slot (s : State) (ch : Channel) (p : Nat) : Nat := p % s.cfg.capacity ch

/-- `MemRead(B, a, 1)`. A slot nothing has written holds its unspecified reset byte (R30, R51). -/
def State.byteAt (s : State) (ch : Channel) (a : Nat) : Byte :=
  ((s.buf ch).storage.read a).getD (Config.resetByte s.draw ch a)

/-- `MemWrite(B, a, 1, v)`. -/
def memWrite (ch : Channel) (a : Nat) (v : Byte) (s : State) : State :=
  s.setBuf ch { s.buf ch with storage := (s.buf ch).storage.write a v }

/-- `B.wc <- B.wc + 1`. -/
def advanceWc (ch : Channel) (s : State) : State :=
  s.setBuf ch { s.buf ch with wc := (s.buf ch).wc + 1 }

/-- `B.rc <- B.rc + 1`. -/
def advanceRc (ch : Channel) (s : State) : State :=
  s.setBuf ch { s.buf ch with rc := (s.buf ch).rc + 1 }

/-! ## The seven primitives (R80 to R86) -/

/-- `rb_len(B) = B.wc - B.rc` (R80). -/
def rbLen (ch : Channel) (s : State) : Nat := (s.buf ch).wc - (s.buf ch).rc

/-- `rb_is_empty(B)`: the cursors are equal (R81). -/
def rbIsEmpty (ch : Channel) (s : State) : Bool := (s.buf ch).wc == (s.buf ch).rc

/-- `rb_is_full(B)`: the difference equals `C` (R82). -/
def rbIsFull (ch : Channel) (s : State) : Bool :=
  (s.buf ch).wc - (s.buf ch).rc == s.cfg.capacity ch

/-- The write cursor holds `2^W - 1` (R25). -/
def wcAtBound (ch : Channel) (s : State) : Bool := s.cfg.isBound (s.buf ch).wc

/-- What an insertion returns: `Ok` with the new state, `Overflow`, or the fault, each of the last two
with nothing written. -/
inductive PushResult where
  | ok (s : State)
  | overflow
  | cursorOverflow

/-- Write the byte in the slot of `B.wc`, then advance `B.wc` (the last two lines of R83 and R85). -/
def insertByte (ch : Channel) (b : Byte) (s : State) : State :=
  advanceWc ch (memWrite ch (s.slot ch (s.buf ch).wc) b s)

/-- `rb_push(B, b)`, the rejecting policy: full is tested before the bound (R83, R150). -/
def rbPush (ch : Channel) (b : Byte) (s : State) : PushResult :=
  if rbIsFull ch s then .overflow
  else if wcAtBound ch s then .cursorOverflow
  else .ok (insertByte ch b s)

/-- `rb_pop(B)`: the oldest byte and the state with `B.rc` advanced, or no value (R84). -/
def rbPop (ch : Channel) (s : State) : Option (Byte × State) :=
  if rbIsEmpty ch s then none
  else some (s.byteAt ch (s.slot ch (s.buf ch).rc), advanceRc ch s)

/-- The eviction of R85: where the buffer is full, advance `B.rc`; the byte is not read (R118). -/
def evictIfFull (ch : Channel) (s : State) : State :=
  if rbIsFull ch s then advanceRc ch s else s

/-- `rb_push_drop_oldest(B, b)`: the bound is tested first, so that "an eviction is never performed
without its insertion" (R85, R150). -/
def rbPushDropOldest (ch : Channel) (b : Byte) (s : State) : PushResult :=
  if wcAtBound ch s then .cursorOverflow
  else .ok (insertByte ch b (evictIfFull ch s))

/-- `rb_peek(B, i)`: the byte `i` places after the oldest, or no value (R86). -/
def rbPeek (ch : Channel) (i : Nat) (s : State) : Option Byte :=
  if rbLen ch s ≤ i then none
  else some (s.byteAt ch (s.slot ch ((s.buf ch).rc + i)))

/-! ## Port M: how a command ends (R62, R67, R73, R102) -/

/-- What a meaning answers. -/
abbrev Result := Host.Outcome State Fault Refusal

/-- `respond(status, value)`: the command is accepted and answered (R62, R73). -/
def respond (st : Status) (v : BitVec 24) (s : State) : State :=
  { s with rw := some (responseWord st v) }

/-- `hold`: the command is not accepted, nothing is written and port M carries no response (R73, R102). -/
def hold (s : State) : State := { s with rw := none }

/-- `respond(ILLEGAL, 0)`, the answer to a word outside the opcode map (R67, R131). -/
def answerIllegal (s : State) : State := respond .illegal 0#24 s

/-! ## Port I: the InterruptBridge invocation (R138 to R141) -/

/-- `RX_BRANCH`, with the byte `hw_read_byte()` returns: insert it, evicting when full, and set `FLAG`
(R111). None is the fault `CursorOverflow`, with nothing written. -/
def rxBranch (b : Byte) (s : State) : Option State :=
  match rbPushDropOldest .rx b s with
  | .ok s' => some (setFlag s')
  | .overflow => none
  | .cursorOverflow => none

/-- `TX_BRANCH`: the new state and the byte passed to `hw_write_byte`, if any (R103). -/
def txBranch (s : State) : State × Option Byte :=
  match rbPop .tx s with
  | none => (disableTx s, none)
  | some (v, s') => (if rbIsEmpty .tx s' then disableTx s' else s', some v)

/-- The RX half of an invocation, gated by `rx_full`: `rx` is the byte to be read where it is 1. -/
def rxPart (rx : Option Byte) (s : State) : Option State :=
  match rx with
  | none => some s
  | some b => rxBranch b s

/-- The TX half of an invocation, gated by `tx_ready` alone (R103). -/
def txPart (txReady : Bool) (s : State) : State × Option Byte :=
  if txReady then txBranch s else (s, none)

/-- `produce OUT` (R138). -/
def produceOut (o : OutVec) (s : State) : State := { s with out := some o }

/-- TAKING AN INTERRUPT, the one shared operation: `IRQ(EV)` of R138. The RX branch runs before the TX
branch (R139). "Nothing is saved on entry and nothing restored on exit", and control goes nowhere
(R138). The return from it is the end of this same transition, which restores and re-enables nothing
(R141), so it has no operation of its own. -/
def takeInterrupt (rx : Option Byte) (txReady : Bool) (s : State) : Result :=
  match rxPart rx s with
  | none => .fault .cursorOverflow
  | some s1 =>
    .next (produceOut (outVector rx.isSome (txPart txReady s1).2) (txPart txReady s1).1)

/-! ## Outcomes -/

/-- Go on from a next state; a fault or a refusal stays. -/
def onNext (f : State → State) : Result → Result
  | .next s => .next (f s)
  | .fault r => .fault r
  | .refused r => .refused r

/-! ## Construction (R6, R135, R160) -/

/-- Reset is "the construction of the block": a valid triple leaves the reset state, an invalid one is
refused and "no block exists". -/
def construct (p : Params) (draw : Nat) : Result :=
  if p.valid then .next (State.resetFor p draw) else .refused .configError

end Machine
end Sys2Proof
end

