-- ==== Sys2Proof/Machine/Bridge.lean ====
section
/-! DEFINITION. The two remaining event classes of the InterruptBridge: `IRQ.NONE` and `IRQ.RXTX`
(60_exceptions.md). -/

namespace Sys2Proof.Machine

/-- `IRQ.NONE`: neither branch runs, `OUT = 0x000`, no state written (R152). -/
def execIrqNone (s : State) : Result := takeInterrupt none false s

/-- `IRQ.RXTX`: the RX branch, then the TX branch, in one invocation (R138, R139). -/
def execIrqRxTx (rxData : Byte) (s : State) : Result := takeInterrupt (some rxData) true s

end Sys2Proof.Machine
end

