-- ==== Sys2Proof/Machine/RxChannel.lean ====
section
/-! DEFINITION. ReceiveChannel and the signal flag: `IRQ.RX`, `RXPOP`, `RXPEEK`, `FLAGRD`, `FLAGCLR`
(42_rx_channel.md). -/

namespace Sys2Proof.Machine

/-- `RXPOP`: remove and return the oldest received byte (R112). -/
def execRxpop (s : State) : Result :=
  match rbPop .rx s with
  | none => .next (respond .noValue 0#24 s)
  | some (v, s') => .next (respond .ok (byteValue v) s')

/-- `RXPEEK idx`: return the byte `idx` places after the oldest, without removing it (R113). -/
def execRxpeek (idx : Nat) (s : State) : Result :=
  match rbPeek .rx idx s with
  | none => .next (respond .noValue 0#24 s)
  | some v => .next (respond .ok (byteValue v) s)

/-- `FLAGRD`: read the signal flag (R114). -/
def execFlagrd (s : State) : Result := .next (respond .ok (boolValue s.flag) s)

/-- `FLAGCLR`: clear the signal flag (R115). -/
def execFlagclr (s : State) : Result := .next (respond .ok 0#24 (clearFlag s))

/-- `IRQ.RX`: an invocation with `rx_full` alone (R111, R138). -/
def execIrqRx (rxData : Byte) (s : State) : Result := takeInterrupt (some rxData) false s

end Sys2Proof.Machine
end

