-- ==== Sys2Proof/Machine/StatusCommands.lean ====
section
/-! DEFINITION. The status commands `EMPTY`, `FULL`, `LEN` (43_status_commands.md). -/

namespace Sys2Proof.Machine

/-- `EMPTY ch` (R125). -/
def execEmpty (ch : Channel) (s : State) : Result :=
  .next (respond .ok (boolValue (rbIsEmpty ch s)) s)

/-- `FULL ch` (R126). -/
def execFull (ch : Channel) (s : State) : Result :=
  .next (respond .ok (boolValue (rbIsFull ch s)) s)

/-- `LEN ch` (R127). -/
def execLen (ch : Channel) (s : State) : Result :=
  .next (respond .ok (lenValue (rbLen ch s)) s)

end Sys2Proof.Machine
end

