-- ==== Sys2Proof/Machine/TxChannel.lean ====
section
/-! DEFINITION. TransmitChannel: `TXPUSH`, `TXW`, `IRQ.TX` (41_tx_channel.md). -/

namespace Sys2Proof.Machine

/-- `TXPUSH data`: one non-blocking attempt to enqueue a byte (R101). -/
def execTxpush (data : Byte) (s : State) : Result :=
  match rbPush .tx data s with
  | .overflow => .next (respond .overflow 0#24 s)
  | .cursorOverflow => .fault .cursorOverflow
  | .ok s' => .next (respond .ok 0#24 (enableTx s'))

/-- `TXW data`: enqueue a byte, held while `TX` is full (R102). The hold test is the full test of
`rb_push`, so its `Overflow` is the hold. -/
def execTxw (data : Byte) (s : State) : Result :=
  match rbPush .tx data s with
  | .overflow => .next (hold s)
  | .cursorOverflow => .fault .cursorOverflow
  | .ok s' => .next (respond .ok 0#24 (enableTx s'))

/-- `IRQ.TX`: an invocation with `tx_ready` alone (R103, R138). -/
def execIrqTx (s : State) : Result := takeInterrupt none true s

end Sys2Proof.Machine
end

