-- ==== Sys2Proof/Machine/Dispatch.lean ====
section
/-! DEFINITION. One arm per instruction. -/

namespace Sys2Proof.Machine

def exec (i : Instr) (s : State) : Host.Outcome State Fault Refusal :=
  match i with
  | .txpush data => Sys2Proof.Machine.execTxpush data s
  | .txw data => Sys2Proof.Machine.execTxw data s
  | .rxpop => Sys2Proof.Machine.execRxpop s
  | .rxpeek idx => Sys2Proof.Machine.execRxpeek idx s
  | .empty ch => Sys2Proof.Machine.execEmpty ch s
  | .full ch => Sys2Proof.Machine.execFull ch s
  | .len ch => Sys2Proof.Machine.execLen ch s
  | .flagrd => Sys2Proof.Machine.execFlagrd s
  | .flagclr => Sys2Proof.Machine.execFlagclr s
  | .irqNone => Sys2Proof.Machine.execIrqNone s
  | .irqTx => Sys2Proof.Machine.execIrqTx s
  | .irqRx rxData => Sys2Proof.Machine.execIrqRx rxData s
  | .irqRxTx rxData => Sys2Proof.Machine.execIrqRxTx rxData s

end Sys2Proof.Machine
end

