-- ==== Sys2Proof/Machine/MainAgent.lean ====
section
/-! DEFINITION. MAIN as an agent: which command word it presents, and what it does with the response.
The pseudo-instructions are the fixed expansions of R71 and R119. -/

namespace Sys2Proof.Machine

/-- The command word of a port-M instruction (an event class has none). -/
def commandOf (i : Instr) : Option Word :=
  match encode i with
  | .m cw => some cw
  | .i _ => none

/-- The command word MAIN presents, or none where the expansion has no command left. -/
def MainItem.present : MainItem → Option Word
  | .word cw => some cw
  | .writeBytes [] => none
  | .writeBytes (b :: _) => commandOf (.txw b)
  | .spinPush _ => commandOf (.full .tx)
  | .waitFlag => commandOf .flagrd
  | .drain => commandOf .rxpop
  | .consume => commandOf .flagrd
  | .hist => commandOf (.len .rx)
  | .histPeeks i n _ => if i < n then commandOf (.rxpeek i) else none

/-- The command word MAIN presents in the next step, if it is MAIN's turn. -/
def State.presented (s : State) : Option Word :=
  match s.sched, s.main.prog with
  | .main :: _, item :: _ => item.present
  | _, _ => none

/-- "Repeat ... until `RW[0] = 1`" and "`RW[0] = 0`" (R71). -/
def rwBit0 (rw : Word) : Bool := rw.getLsbD 0

/-- The bytes a `HIST` has seen, with the response to one more `RXPEEK`: counted only if `OK` (R119). -/
def histSeen (seen : List Byte) (rw : Word) : List Byte :=
  if rwStatus rw = Status.ok.code then seen ++ [(rwValue rw).setWidth 8] else seen

/-- How often a byte value was seen. -/
def histCount (seen : List Byte) (v : Nat) : Nat := seen.count (BitVec.ofNat 8 v)

/-- "For v in 0 .. 255 ascending: if `count[v] != 0`: emit `(v, count[v])`" (R119). -/
def histogram (seen : List Byte) : List (Byte × Nat) :=
  (List.range 256).filterMap fun v =>
    if histCount seen v = 0 then none else some (BitVec.ofNat 8 v, histCount seen v)

/-- What MAIN still has to do of an item once its command is answered with `rw` (R71). -/
def MainItem.after (rw : Word) : MainItem → List MainItem
  | .word _ => []
  | .writeBytes [] => []
  | .writeBytes (_ :: bs) => if bs = [] then [] else [.writeBytes bs]
  | .spinPush b => if rwBit0 rw then [.spinPush b] else ((commandOf (.txpush b)).map .word).toList
  | .waitFlag => if rwBit0 rw then [] else [.waitFlag]
  | .drain => if rwStatus rw = Status.noValue.code then [] else [.drain]
  | .consume =>
    if rwBit0 rw then .drain :: ((commandOf .flagclr).map .word).toList else [.consume]
  | .hist => if rwValue rw = 0#24 then [] else [.histPeeks 0 (rwValue rw).toNat []]
  | .histPeeks i n seen => if i + 1 < n then [.histPeeks (i + 1) n (histSeen seen rw)] else []

/-- What an item emits once its command is answered with `rw`: only the last `RXPEEK` of a `HIST` does. -/
def MainItem.emits (rw : Word) : MainItem → List (Byte × Nat)
  | .histPeeks i n seen => if i + 1 < n then [] else histogram (histSeen seen rw)
  | .word _ | .writeBytes _ | .spinPush _ | .waitFlag | .drain | .consume | .hist => []

/-- The result of a `DRAIN`: "the bytes returned with `OK`, in order" (R71). -/
def okBytes : List Word → List Byte
  | [] => []
  | rw :: rws =>
    if rwStatus rw = Status.ok.code then (rwValue rw).setWidth 8 :: okBytes rws else okBytes rws

end Sys2Proof.Machine
end

