-- ==== Sys2Proof/Machine/Uart.lean ====
section
/-! DEFINITION. The reference environment of R146: what its UART does, and when an invocation may fire
(R136, R137). Environment, not block state. -/

namespace Sys2Proof.Machine

/-- Receive-full is pending "from the arrival of a byte until that byte is read" (R136). -/
def Uart.rxPending (u : Uart) : Bool := u.rxp.isSome

/-- Transmit-ready is pending "while the transmitter can take a byte" (R136). -/
def Uart.txPending (u : Uart) : Bool := !u.txb

/-- "An invocation may fire iff `rxp != None`, or `txb = 0` and `TXIE = 1`" (R146). -/
def Uart.mayFire (u : Uart) (txie : Bool) : Bool := u.rxPending || (u.txPending && txie)

/-- The UART's vector: the true values of the two predicates and the byte to be read (R137, R146).
Where `rxp` is None that byte is "any value" and ignored by the decoder; 0 stands for it. -/
def Uart.vector (u : Uart) : EventVec := eventVector u.rxPending u.txPending (u.rxp.getD 0#8)

/-- `arrive(b)`, "enabled when `rxp = None`"; it has no step otherwise. -/
def Uart.arrive (b : Byte) (u : Uart) : Uart :=
  match u.rxp with
  | none => { u with rxp := some b }
  | some _ => u

/-- `txdone`, "enabled when `txb = 1`"; it has no step otherwise. -/
def Uart.txdone (u : Uart) : Uart := { u with txb := false }

/-- `OUT.rd = 1` takes the received byte (R146). -/
def Uart.takeRead (o : OutVec) (u : Uart) : Uart :=
  if outRd o then { u with rxp := none } else u

/-- `OUT.wr = 1` puts `OUT.wdata` on the line and makes the transmitter busy (R146). -/
def Uart.takeWrite (o : OutVec) (u : Uart) : Uart :=
  if outWr o then { u with line := u.line ++ [outWdata o], txb := true } else u

/-- The outputs of an invocation act on the UART, the read before the write (R139, R146). -/
def Uart.react (o : OutVec) (u : Uart) : Uart := Uart.takeWrite o (Uart.takeRead o u)

end Sys2Proof.Machine
end

