-- ==== Sys2Proof/Machine/Turn.lean ====
section
/-! DEFINITION. One turn of one agent: MAIN on port M, an InterruptBridge invocation on port I, or the
reference UART (R8, R73, R138, R142, R146). -/

namespace Sys2Proof.Machine

/-- Perform a command word: "decoding is total and comes before everything else" (R68). -/
def runCommand (cw : Word) (s : State) : Result :=
  match decodeCommand cw with
  | .instr i => exec i s
  | .illegal _ => .next (answerIllegal s)

/-- MAIN receives the response, if there is one: it goes on with the rest of the item and the items
after it. With no response the command is held and MAIN keeps presenting it (R73). -/
def deliver (item : MainItem) (more : List MainItem) (s : State) : State :=
  match s.rw with
  | none => s
  | some rw =>
    { s with main := { prog := item.after rw ++ more,
                       heard := s.main.heard ++ [rw],
                       emitted := s.main.emitted ++ item.emits rw } }

/-- MAIN's turn: present the command at the head of its program. -/
def mainTurn (s : State) : Result :=
  match s.main.prog with
  | [] => .next s
  | item :: more =>
    match item.present with
    | none => .next { s with main := { s.main with prog := more } }
    | some cw => onNext (deliver item more) (runCommand cw s)

/-- The outputs of the invocation act on the UART (R146). -/
def reactUart (s : State) : State :=
  match s.out with
  | none => s
  | some o => { s with uart := s.uart.react o }

/-- An InterruptBridge invocation with this vector, which the block never refuses (R137, R138). -/
def invocation (ev : EventVec) (s : State) : Result := onNext reactUart (exec (decodeEvent ev) s)

/-- The reference environment's invocation; where it may not fire, there is none (R146). -/
def fireTurn (s : State) : Result :=
  if s.uart.mayFire s.txie then invocation s.uart.vector s else .next s

/-- One turn. -/
def takeTurn (t : Turn) (s : State) : Result :=
  match t with
  | .main => mainTurn s
  | .event ev => invocation ev s
  | .fire => fireTurn s
  | .arrive b => .next { s with uart := s.uart.arrive b }
  | .txdone => .next { s with uart := s.uart.txdone }

/-- The step: no rule applies to an invalid configuration (R6). With no turn to come the block "executes
nothing on its own ...; it waits for the first command or event" (R160). -/
def stepTurn (s : State) : Result :=
  if s.cfg.valid then
    match s.sched with
    | [] => .next s
    | t :: rest => takeTurn t { s with sched := rest }
  else .refused .configError

/-- A port word made the very next thing the step runs. -/
def placeNext (pw : PortWord) (s : State) : State :=
  match pw with
  | .m cw =>
    { s with sched := .main :: s.sched, main := { s.main with prog := .word cw :: s.main.prog } }
  | .i ev => { s with sched := .event ev :: s.sched }

end Sys2Proof.Machine
end

