-- ==== Sys2Proof/Machine/Step.lean ====
section
/-! DEFINITION. The step, and the placing of an instruction for it. -/

namespace Sys2Proof.Machine

/-- One transition of the machine. -/
def step (s : State) : Host.Outcome State Fault Refusal := stepTurn s

/-- The state in which the very next step runs the instruction whose table word is `w`: the block
fetches nothing (R28, R50), so the word is presented on its port (notes/assumptions/5.md). -/
def State.withFetchWord (s : State) (nbits w : Nat) : State :=
  match tablePortWord nbits w with
  | some pw => placeNext pw s
  | none => s

end Sys2Proof.Machine
end

