-- ==== Sys2Proof/Machine/Assembler.lean ====
section
/-! DEFINITION. The textual syntax of commands and events (R70), over lists of characters. -/

namespace Sys2Proof.Machine

/-- The value of a digit in base 10 or 16. -/
def digitValue (base : Nat) (c : Char) : Option Nat :=
  let n := c.toNat
  let v := if 48 ≤ n ∧ n ≤ 57 then n - 48
    else if 65 ≤ n ∧ n ≤ 70 then n - 55
    else if 97 ≤ n ∧ n ≤ 102 then n - 87 else base
  if v < base then some v else none

/-- The value of a run of digits after a value already read. -/
def digitsValue (base : Nat) : List Char → Nat → Option Nat
  | [], acc => some acc
  | c :: cs, acc =>
    match digitValue base c with
    | some v => digitsValue base cs (acc * base + v)
    | none => none

/-- A number in decimal or `0x` hexadecimal. -/
def readNumber : List Char → Option Nat
  | [] => none
  | '0' :: 'x' :: c :: cs => digitsValue 16 (c :: cs) 0
  | c :: cs => digitsValue 10 (c :: cs) 0

/-- A number below a bound. -/
def readBelow (bound : Nat) (cs : List Char) : Option Nat :=
  match readNumber cs with
  | some n => if n < bound then some n else none
  | none => none

/-- `<byte>`, "a number 0 to 255 in decimal, `0x` hexadecimal or a quoted ASCII character". -/
def readByte : List Char → Option Byte
  | ['\'', c, '\''] => if c.toNat < 128 then some (BitVec.ofNat 8 c.toNat) else none
  | cs => (readBelow 256 cs).map (BitVec.ofNat 8)

/-- `<idx>`, "a number 0 to 16777215"; the quoted character is a form of `<byte>` alone
(notes/assumptions/22.md). -/
def readIdx (cs : List Char) : Option Nat := readBelow (2 ^ 24) cs

/-- `RX` or `TX`. -/
def readChannel (cs : List Char) : Option Channel :=
  if cs = ['R', 'X'] then some .rx else if cs = ['T', 'X'] then some .tx else none

/-- The characters before the first space and, if there is one, those after it. -/
def splitWord : List Char → List Char × Option (List Char)
  | [] => ([], none)
  | c :: cs => if c = ' ' then ([], some cs) else (c :: (splitWord cs).1, (splitWord cs).2)

/-- What stands after `IRQ`: `NONE`, `TX`, `RX(<byte>)` or `RX(<byte>)+TX`. -/
def assembleEvent (cs : List Char) : Option Instr :=
  if cs = ['N', 'O', 'N', 'E'] then some .irqNone
  else if cs = ['T', 'X'] then some .irqTx
  else
    match cs with
    | 'R' :: 'X' :: '(' :: rest =>
      if [')', '+', 'T', 'X'].isSuffixOf rest then
        (readByte (rest.take (rest.length - 4))).map .irqRxTx
      else if [')'].isSuffixOf rest then (readByte (rest.take (rest.length - 1))).map .irqRx
      else none
    | _ => none

/-- An instruction without an operand. -/
def noOperand (i : Instr) (arg : Option (List Char)) : Option Instr :=
  if arg.isNone then some i else none

/-- The instruction a line of text names; its word is `encode` of it. -/
def assemble (text : List Char) : Option Instr :=
  let op := (splitWord text).1
  let arg := (splitWord text).2
  if op = ['T', 'X', 'P', 'U', 'S', 'H'] then (arg.bind readByte).map .txpush
  else if op = ['T', 'X', 'W'] then (arg.bind readByte).map .txw
  else if op = ['R', 'X', 'P', 'O', 'P'] then noOperand .rxpop arg
  else if op = ['R', 'X', 'P', 'E', 'E', 'K'] then (arg.bind readIdx).map .rxpeek
  else if op = ['E', 'M', 'P', 'T', 'Y'] then (arg.bind readChannel).map .empty
  else if op = ['F', 'U', 'L', 'L'] then (arg.bind readChannel).map .full
  else if op = ['L', 'E', 'N'] then (arg.bind readChannel).map .len
  else if op = ['F', 'L', 'A', 'G', 'R', 'D'] then noOperand .flagrd arg
  else if op = ['F', 'L', 'A', 'G', 'C', 'L', 'R'] then noOperand .flagclr arg
  else if op = ['I', 'R', 'Q'] then arg.bind assembleEvent
  else none

end Sys2Proof.Machine
end

