-- ==== Sys2Proof/Machine/Script.lean ====
section
/-! DEFINITION. Scripts, "the spec's form of a program": an ordered list of lines that "fixes one
interleaving of the two contexts" (R70, R28). -/

namespace Sys2Proof.Machine

/-- A line: a command or an event, with the `RW` or `OUT` expected of it, if the line says one. A held
line "records that the command is presented and not accepted at that point; the same command appears
again where it is accepted". -/
inductive ScriptLine where
  | command (cw : Word) (expect : Option Word)
  | commandHeld (cw : Word)
  | event (ev : EventVec) (expect : Option OutVec)
  deriving DecidableEq, Repr

/-! ## The text of a line (R70) -/

/-- The characters before ` -> ` and, if it is there, those after it. -/
def splitArrow : List Char → List Char × Option (List Char)
  | [] => ([], none)
  | ' ' :: '-' :: '>' :: ' ' :: rest => ([], some rest)
  | c :: cs => (c :: (splitArrow cs).1, (splitArrow cs).2)

/-- The expected word of a line: none where the line says none, some where it says one that fits `w` bits. -/
def readExpect (w : Nat) : Option (List Char) → Option (Option (BitVec w))
  | none => some none
  | some cs => (readBelow (2 ^ w) cs).map fun n => some (BitVec.ofNat w n)

/-- `(held)` at the end of a command, with the space before it. -/
def heldMark : List Char := " (held)".toList

/-- What stands after `M: `: a command, expected to answer a word or not, or a held `TXW`. -/
def assembleCommandLine (text : List Char) : Option ScriptLine :=
  if heldMark.isSuffixOf text then
    match assemble (text.take (text.length - heldMark.length)) with
    | some (.txw data) => (commandOf (.txw data)).map .commandHeld
    | _ => none
  else
    match (assemble (splitArrow text).1).bind commandOf, readExpect 32 (splitArrow text).2 with
    | some cw, some e => some (.command cw e)
    | _, _ => none

/-- What stands after `I: `: an event, expected to produce an `OUT` or not. -/
def assembleEventLine (text : List Char) : Option ScriptLine :=
  match (assemble (splitArrow text).1).map encode, readExpect 10 (splitArrow text).2 with
  | some (.i ev), some e => some (.event ev e)
  | _, _ => none

/-- A line of a script, `M: <command>` or `I: <event>`. -/
def assembleLine : List Char → Option ScriptLine
  | 'M' :: ':' :: ' ' :: text => assembleCommandLine text
  | 'I' :: ':' :: ' ' :: text => assembleEventLine text
  | _ => none

/-! ## Loading a script -/

/-- Whose turn a line is. -/
def ScriptLine.turn : ScriptLine → Turn
  | .command _ _ => .main
  | .commandHeld _ => .main
  | .event ev _ => .event ev

/-- The word of the first port-M line, if there is one. -/
def nextCommand : List ScriptLine → Option Word
  | [] => none
  | .command cw _ :: _ => some cw
  | .commandHeld cw :: _ => some cw
  | .event _ _ :: ls => nextCommand ls

/-- The commands MAIN has to present. A held line and the line where "the same command appears again" are
one command of MAIN, which keeps presenting it (R73); a held word that does not appear again next is a
command of its own, and MAIN presents it still where a line after it names another
(notes/assumptions/21.md). -/
def scriptItems : List ScriptLine → List MainItem
  | [] => []
  | .command cw _ :: ls => .word cw :: scriptItems ls
  | .commandHeld cw :: ls =>
    if nextCommand ls = some cw then scriptItems ls else .word cw :: scriptItems ls
  | .event _ _ :: ls => scriptItems ls

/-- Load a script: its interleaving becomes the turns to come, its commands become MAIN's program. -/
def loadScript (ls : List ScriptLine) (s : State) : State :=
  { s with sched := s.sched ++ ls.map ScriptLine.turn,
           main := { s.main with prog := s.main.prog ++ scriptItems ls } }

/-! ## Checking a script -/

/-- The response of a line, where it says one. -/
def meets {α : Type} [DecidableEq α] (expect : Option α) (answer : Option α) : Bool :=
  match expect with
  | none => answer.isSome
  | some _ => answer == expect

/-- The step from `s` to `s'` is the one the line records: the word MAIN presents is the line's, and it is
answered as the line expects, or not answered where the line says it is held. -/
def ScriptLine.agrees (l : ScriptLine) (s s' : State) : Bool :=
  match l with
  | .command cw e => s.presented == some cw && meets e s'.rw
  | .commandHeld cw => s.presented == some cw && s'.rw.isNone
  | .event _ e => meets e s'.out

/-- Run a loaded script, one step a line, checking each line. -/
def checkScript : List ScriptLine → State → Bool
  | [], _ => true
  | l :: ls, s =>
    match step s with
    | .next s' => l.agrees s s' && checkScript ls s'
    | .fault _ => false
    | .refused _ => false

end Sys2Proof.Machine
end

