-- ==== Sys2Proof/Safety.lean ====
section
/-! DEFINITION. What claims are made of: the contents of a channel, the invariants of a reachable state,
safe runs, the environment assumption, and what a step accepts. -/

namespace Sys2Proof.Machine

/-! ## What a channel holds -/

/-- The bytes of the occupied region, oldest first: logical positions `B.rc` to `B.wc - 1` (R23). -/
def State.contents (s : State) (ch : Channel) : List Byte :=
  (List.range (rbLen ch s)).map fun i => s.byteAt ch (s.slot ch ((s.buf ch).rc + i))

/-- The last `c` entries of a list (R91: "exactly the last `C` bytes in original order"). -/
def lastN (c : Nat) (bs : List Byte) : List Byte := bs.drop (bs.length - c)

/-! ## Invariants -/

/-- The value is one a cursor register of `W` bits can hold (R25). -/
def holdsCursor (p : Params) (cursor : Nat) : Bool :=
  match p.w with
  | none => true
  | some w => decide (cursor ≤ 2 ^ w - 1)

/-- INV-RB (R22), with the width of the cursors (R25) and the form and range of the storage (R40). -/
abbrev State.RingOk (s : State) (ch : Channel) : Prop :=
  (s.buf ch).rc ≤ (s.buf ch).wc ∧
  (s.buf ch).wc - (s.buf ch).rc ≤ s.cfg.capacity ch ∧
  holdsCursor s.cfg (s.buf ch).wc = true ∧
  (s.buf ch).storage.wf ∧
  (s.buf ch).storage.within (s.cfg.capacity ch)

/-- The invariant of every reachable state. -/
abbrev State.Inv (s : State) : Prop :=
  s.cfg.valid = true ∧ s.RingOk .rx ∧ s.RingOk .tx

/-- INV-TXIE: "`TXIE = 1` iff `len(TX) >= 1`" (R105). -/
abbrev State.InvTxie (s : State) : Prop := s.txie = true ↔ s.tx.rc < s.tx.wc

/-- Every occupied slot has been written since reset (R51). -/
abbrev State.InvWritten (s : State) : Prop :=
  ∀ ch ∈ [Channel.rx, Channel.tx], ∀ i < rbLen ch s,
    ((s.buf ch).storage.read (s.slot ch ((s.buf ch).rc + i))).isSome = true

/-- `B.wc` holds `2^W - 1`, with `W` finite (R25). -/
def State.wcBound (s : State) (ch : Channel) : Prop :=
  ∃ w, s.cfg.w = some w ∧ (s.buf ch).wc = 2 ^ w - 1

/-- `n` more insertions stay at or below the bound `2^W - 1`; always so where `W` is unbounded (R172). -/
def State.room (s : State) (ch : Channel) (n : Nat) : Prop :=
  ∀ w, s.cfg.w = some w → (s.buf ch).wc + n ≤ 2 ^ w - 1

/-! ## Storage an instruction writes -/

/-- The instance and the address an instruction stores to, in the state before it (R43): the slot of
the write cursor, for an accepted push and for the RX branch. -/
def storesTo (i : Instr) (s : State) : Option (Channel × Nat) :=
  match i with
  | .txpush _ | .txw _ => if rbIsFull .tx s then none else some (.tx, s.slot .tx s.tx.wc)
  | .irqRx _ | .irqRxTx _ => some (.rx, s.slot .rx s.rx.wc)
  | .rxpop | .rxpeek _ | .empty _ | .full _ | .len _ | .flagrd | .flagclr => none
  | .irqNone | .irqTx => none

/-! ## Runs -/

/-- Run instructions in order, with nothing between them, stopping at the first that does not go on. -/
def runAll : List Instr → State → Result
  | [], s => .next s
  | i :: is, s =>
    match exec i s with
    | .next s' => runAll is s'
    | .fault r => .fault r
    | .refused r => .refused r

/-- A safe run: `n` steps, none of which faults or is refused (R134: "a claim about a run takes "no
fault" as a premise"). -/
def safeRun : Nat → State → Prop
  | 0, _ => True
  | n + 1, s =>
    match step s with
    | .next s' => safeRun n s'
    | .fault _ => False
    | .refused _ => False

/-- The bytes that `n` transmit-ready invocations in a row hand to the hardware, in order. -/
def sentBy : Nat → State → List Byte
  | 0, _ => []
  | n + 1, s =>
    match exec .irqTx s with
    | .next s' =>
      (match s'.out with
        | some o => if outWr o then [outWdata o] else []
        | none => []) ++ sentBy n s'
    | .fault _ => []
    | .refused _ => []

/-- The responses of `n` `RXPOP` commands in a row. -/
def poppedBy : Nat → State → List Word
  | 0, _ => []
  | n + 1, s =>
    match exec .rxpop s with
    | .next s' => s'.rw.toList ++ poppedBy n s'
    | .fault _ => []
    | .refused _ => []

/-! ## Sequences of primitive calls (R90) -/

/-- The policy of an insertion: `rb_push` rejects on a full channel, `rb_push_drop_oldest` evicts. -/
inductive Policy where
  | rejecting
  | dropOldest
  deriving DecidableEq, Repr

/-- One insertion with either policy (R83, R85). -/
def insertWith (ch : Channel) : Policy → Byte → State → PushResult
  | .rejecting, b, s => rbPush ch b s
  | .dropOldest, b, s => rbPushDropOldest ch b s

/-- Insertions in order, each with its policy; none unless every one is successful. -/
def insertAll (ch : Channel) : List (Policy × Byte) → State → Option State
  | [], s => some s
  | (p, b) :: ps, s =>
    match insertWith ch p b s with
    | .ok s' => insertAll ch ps s'
    | .overflow => none
    | .cursorOverflow => none

/-- The bytes up to `n` calls of `rb_pop` in a row return, in order; no more once one returns no value. -/
def popAll (ch : Channel) : Nat → State → List Byte
  | 0, _ => []
  | n + 1, s =>
    match rbPop ch s with
    | some (b, s') => b :: popAll ch n s'
    | none => []

/-! ## The environment (R137) -/

/-- The firing condition: "`EV.rx_full = 1`, or `EV.tx_ready = 1` and `TXIE = 1`". -/
def firingCondition (ev : EventVec) (txie : Bool) : Bool :=
  evRxFull ev || (evTxReady ev && txie)

/-! ## What the next step does -/

/-- The instruction the next step performs, if it performs one: a legal command of MAIN, or an
invocation. -/
def State.performs (s : State) : Option Instr :=
  match s.sched with
  | [] => none
  | .main :: _ =>
    match s.presented with
    | some cw =>
      match decodeCommand cw with
      | .instr i => some i
      | .illegal _ => none
    | none => none
  | .event ev :: _ => some (decodeEvent ev)
  | .fire :: _ =>
    if s.uart.mayFire s.txie then some (decodeEvent s.uart.vector) else none
  | .arrive _ :: _ => none
  | .txdone :: _ => none

/-- The byte a `TXPUSH` or `TXW` carries. -/
def txData : Instr → Option Byte
  | .txpush d => some d
  | .txw d => some d
  | .rxpop | .rxpeek _ | .empty _ | .full _ | .len _ | .flagrd | .flagclr => none
  | .irqNone | .irqTx | .irqRx _ | .irqRxTx _ => none

/-- The byte the next step accepts for transmission: the byte of a `TXPUSH` or `TXW` presented while
`TX` is not full (R101, R102). -/
def State.accepts (s : State) : List Byte :=
  if rbIsFull .tx s then [] else (s.performs.bind txData).toList

/-- The bytes `n` steps accept for transmission, in order. -/
def acceptedBy : Nat → State → List Byte
  | 0, _ => []
  | n + 1, s =>
    match step s with
    | .next s' => s.accepts ++ acceptedBy n s'
    | .fault _ => []
    | .refused _ => []

end Sys2Proof.Machine
end

