-- ==== Sys2Proof/Certificates/Slice0/Obligations.lean ====
section
/-! DEFINITION. The statements for the provers. -/

open Sys2Proof Sys2Proof.Machine

/-! ## Configuration and reset -/

/-- R30: after reset every cursor is 0, `FLAG` and `TXIE` are 0, and each storage byte is unspecified:
the free value of the draw, for every draw. -/
def Obligations.ResetLeavesTheSpecifiedState : Prop :=
  ∀ (p : Params) (draw : Nat), p.valid = true →
    ∃ t, construct p draw = .next t ∧ t.cfg = p ∧
      t.rx.wc = 0 ∧ t.rx.rc = 0 ∧ t.tx.wc = 0 ∧ t.tx.rc = 0 ∧ t.flag = false ∧ t.txie = false ∧
      ∀ ch a, t.byteAt ch a = Config.resetByte draw ch a

/-- R5, R6: which triples are valid, and that an invalid one has no block: construction refuses it, and
in a state that carries one no step has a meaning. That last clause is the model's choice (log 15): the
spec knows no state with an invalid triple. -/
def Obligations.InvalidConfigurationIsRefused : Prop :=
  (∀ p : Params, p.valid = true ↔
    1 ≤ p.cTx ∧ 1 ≤ p.cRx ∧ p.cTx < p.cRx ∧ p.cRx ≤ 2 ^ 24 - 1 ∧ p.cTx ≤ 2 ^ 24 - 1 ∧
      ∀ w, p.w = some w → p.cRx ≤ 2 ^ w - 1 ∧ p.cTx ≤ 2 ^ w - 1) ∧
  (∀ (p : Params) (draw : Nat), p.valid = false → construct p draw = .refused .configError) ∧
  (∀ s : State, s.cfg.valid = false → step s = .refused .configError)

/-- R161, R160: what the status commands and `FLAGRD` answer after reset, the environment after reset,
and that the block waits: with no turn to come a step leaves the state as it is (the model's choice,
log 8). -/
def Obligations.ResetAnswersEmptyAndWaits : Prop :=
  ∀ (p : Params) (draw : Nat), p.valid = true →
    (∀ ch, exec (.len ch) (State.resetFor p draw)
        = .next { State.resetFor p draw with rw := some 0x00000000#32 }) ∧
    (∀ ch, exec (.empty ch) (State.resetFor p draw)
        = .next { State.resetFor p draw with rw := some 0x00000001#32 }) ∧
    (∀ ch, exec (.full ch) (State.resetFor p draw)
        = .next { State.resetFor p draw with rw := some 0x00000000#32 }) ∧
    exec .flagrd (State.resetFor p draw)
        = .next { State.resetFor p draw with rw := some 0x00000000#32 } ∧
    (State.resetFor p draw).uart = ⟨none, false, []⟩ ∧
    step (State.resetFor p draw) = .next (State.resetFor p draw)

/-! ## Invariants -/

/-- The invariants hold at reset, for every valid configuration. -/
def Obligations.ResetSatisfiesTheInvariants : Prop :=
  ∀ (p : Params) (draw : Nat), p.valid = true →
    (State.resetFor p draw).Inv ∧ (State.resetFor p draw).InvTxie ∧
      (State.resetFor p draw).InvWritten

/-- Every step keeps INV-RB of both channels (R22), the cursors inside `W` bits (R25) and the storage
canonical and inside its space (R40), with a valid configuration. -/
def Obligations.EveryStepKeepsTheRingInvariant : Prop :=
  ∀ s t : State, s.Inv → step s = .next t → t.Inv

/-- Every step keeps INV-TXIE: `TXIE = 1` iff `len(TX) >= 1` (R105). -/
def Obligations.EveryStepKeepsTheEnableInvariant : Prop :=
  ∀ s t : State, s.Inv → s.InvTxie → step s = .next t → t.InvTxie

/-- Every step keeps every occupied slot written since reset (R51). -/
def Obligations.EveryStepKeepsOccupiedSlotsWritten : Prop :=
  ∀ s t : State, s.Inv → s.InvWritten → step s = .next t → t.InvWritten

/-- R51, V1: the unspecified reset bytes are unobservable. Changing the draw changes nothing else that a
step does. -/
def Obligations.UnspecifiedResetBytesAreNeverObserved : Prop :=
  ∀ (s : State) (d : Nat), s.Inv → s.InvWritten →
    step { s with draw := d } = onNext (fun t => { t with draw := d }) (step s)

/-- R89, R149, R31: in every step each cursor stays or grows by one, and the capacities never change. -/
def Obligations.CursorsOnlyAdvanceByOne : Prop :=
  ∀ s t : State, step s = .next t →
    t.cfg = s.cfg ∧
    ∀ ch, ((t.buf ch).wc = (s.buf ch).wc ∨ (t.buf ch).wc = (s.buf ch).wc + 1) ∧
      ((t.buf ch).rc = (s.buf ch).rc ∨ (t.buf ch).rc = (s.buf ch).rc + 1)

/-- R89, R23: the three status commands agree with one another, `LEN` never answers more than `C`, and
its answer is the length. -/
def Obligations.StatusCommandsAgreeOnTheLength : Prop :=
  ∀ (s : State) (ch : Channel), s.Inv →
    ∃ n : Nat, n ≤ s.cfg.capacity ch ∧ (s.buf ch).wc = (s.buf ch).rc + n ∧
      exec (.len ch) s = .next { s with rw := some (BitVec.ofNat 32 n) } ∧ n < 2 ^ 24 ∧
      (exec (.empty ch) s = .next { s with rw := some 1#32 } ↔ n = 0) ∧
      (exec (.full ch) s = .next { s with rw := some 1#32 } ↔ n = s.cfg.capacity ch)

/-! ## Decoding and encoding -/

/-- Decoding the encoding of a well-formed instruction gives it back, for every operand. -/
def Obligations.DecodeUndoesEncode : Prop :=
  ∀ i : Instr, i.wellFormed = true → decode (encode i) = .instr i

/-- A legal command word is the encoding of what it decodes to, which is well-formed; so is an event
vector, but for the bits an event class ignores. -/
def Obligations.LegalWordIsTheEncodingOfItsInstruction : Prop :=
  (∀ (cw : Word) (i : Instr), decodeCommand cw = .instr i →
    i.wellFormed = true ∧ encode i = .m cw) ∧
  (∀ ev : EventVec, (decodeEvent ev).wellFormed = true ∧
    encode (decodeEvent ev) = .i (if ev.getLsbD 9 then ev else ev &&& 0x300#10))

/-- R66: the nine (match, mask) rows and the four event classes, each with its operands. -/
def Obligations.OpcodeMapSelectsByMaskAndMatch : Prop :=
  (∀ (cw : Word) (d : Byte), decodeCommand cw = .instr (.txpush d) ↔
    cw &&& 0xFFFFFF00#32 = 0x18000000#32 ∧ d = cw.extractLsb' 0 8) ∧
  (∀ (cw : Word) (d : Byte), decodeCommand cw = .instr (.txw d) ↔
    cw &&& 0xFFFFFF00#32 = 0x28000000#32 ∧ d = cw.extractLsb' 0 8) ∧
  (∀ cw : Word, decodeCommand cw = .instr .rxpop ↔ cw &&& 0xFFFFFFFF#32 = 0x30000000#32) ∧
  (∀ (cw : Word) (n : Nat), decodeCommand cw = .instr (.rxpeek n) ↔
    cw &&& 0xFF000000#32 = 0x40000000#32 ∧ n = (cw.extractLsb' 0 24).toNat) ∧
  (∀ (cw : Word) (ch : Channel), decodeCommand cw = .instr (.empty ch) ↔
    cw &&& 0xF7FFFFFF#32 = 0x50000000#32 ∧ ch = if cw.getLsbD 27 then .tx else .rx) ∧
  (∀ (cw : Word) (ch : Channel), decodeCommand cw = .instr (.full ch) ↔
    cw &&& 0xF7FFFFFF#32 = 0x60000000#32 ∧ ch = if cw.getLsbD 27 then .tx else .rx) ∧
  (∀ (cw : Word) (ch : Channel), decodeCommand cw = .instr (.len ch) ↔
    cw &&& 0xF7FFFFFF#32 = 0x70000000#32 ∧ ch = if cw.getLsbD 27 then .tx else .rx) ∧
  (∀ cw : Word, decodeCommand cw = .instr .flagrd ↔ cw &&& 0xFFFFFFFF#32 = 0x80000000#32) ∧
  (∀ cw : Word, decodeCommand cw = .instr .flagclr ↔ cw &&& 0xFFFFFFFF#32 = 0x90000000#32) ∧
  (∀ ev : EventVec, decodeEvent ev = .irqNone ↔ ev &&& 0x300#10 = 0x000#10) ∧
  (∀ ev : EventVec, decodeEvent ev = .irqTx ↔ ev &&& 0x300#10 = 0x100#10) ∧
  (∀ (ev : EventVec) (d : Byte), decodeEvent ev = .irqRx d ↔
    ev &&& 0x300#10 = 0x200#10 ∧ d = ev.extractLsb' 0 8) ∧
  (∀ (ev : EventVec) (d : Byte), decodeEvent ev = .irqRxTx d ↔
    ev &&& 0x300#10 = 0x300#10 ∧ d = ev.extractLsb' 0 8)

/-- R67, R131: the illegal words are exactly the cases (a) to (f); each is answered `0x30000000` in every
state, full `TX` or not, with nothing else written. -/
def Obligations.IllegalWordsAreExactlyTheListedOnes : Prop :=
  (∀ cw : Word, (∃ why, decodeCommand cw = .illegal why) ↔
    ((cwOp cw = 0x0#4 ∨ 0xA#4 ≤ cwOp cw) ∨
     cwRsv cw ≠ 0#3 ∨
     ((cwOp cw = 0x1#4 ∨ cwOp cw = 0x2#4) ∧ (cwCh cw = false ∨ cwPad cw ≠ 0#16)) ∨
     (((cwOp cw = 0x3#4 ∨ cwOp cw = 0x4#4) ∧ cwCh cw = true) ∨
       (cwOp cw = 0x3#4 ∧ cwArg cw ≠ 0#24)) ∨
     ((cwOp cw = 0x5#4 ∨ cwOp cw = 0x6#4 ∨ cwOp cw = 0x7#4) ∧ cwArg cw ≠ 0#24) ∨
     ((cwOp cw = 0x8#4 ∨ cwOp cw = 0x9#4) ∧ (cwCh cw = true ∨ cwArg cw ≠ 0#24)))) ∧
  (∀ (cw : Word) (why : Illegal) (s : State), decodeCommand cw = .illegal why →
    runCommand cw s = .next { s with rw := some 0x30000000#32 }) ∧
  (∀ (cw : Word) (s t : State), runCommand cw s = .next t →
    t.rx.wc = s.rx.wc ∧ t.tx.rc = s.tx.rc)

/-- R144: port M cannot carry an invocation and port I cannot carry a command. -/
def Obligations.EachPortCarriesOnlyItsOwnRole : Prop :=
  (∀ (cw : Word) (i : Instr), decodeCommand cw = .instr i → i.isCommand = true) ∧
  (∀ ev : EventVec, (decodeEvent ev).isCommand = false)

/-- A few words of R66 and of vectors 2.5, written out bit by bit, and what they decode to. -/
def Obligations.SampleWordsDecodeAsTheSpecEncodesThem : Prop :=
  decodeCommand 0b00011000000000000000000001001000#32 = .instr (.txpush 0x48#8) ∧
  decodeCommand 0b01000000000000000000000000000011#32 = .instr (.rxpeek 3) ∧
  decodeCommand 0b01111000000000000000000000000000#32 = .instr (.len .tx) ∧
  decodeCommand 0b00101000000000000000000101001000#32 = .illegal .pushForm ∧
  decodeEvent 0b1101000001#10 = .irqRxTx 0x41#8

/-! ## The step -/

/-- R68, R73: when it is MAIN's turn (log 7, 10), the step performs the command MAIN presents, and MAIN receives the
response; an illegal word is answered and not performed. -/
def Obligations.StepPerformsThePresentedCommand : Prop :=
  ∀ (s : State) (rest : List Turn) (item : MainItem) (more : List MainItem) (cw : Word),
    s.cfg.valid = true → s.sched = .main :: rest → s.main.prog = item :: more →
    item.present = some cw →
    (∀ i, decodeCommand cw = .instr i →
      step s = onNext (deliver item more) (exec i { s with sched := rest })) ∧
    (∀ why, decodeCommand cw = .illegal why →
      step s = .next (deliver item more { s with sched := rest, rw := some 0x30000000#32 }))

/-- R68, R138: on an event's turn the step performs its invocation, whatever the vector, and the outputs act
on the UART as R146 says. That turns order the events (log 7), and that the reference UART reacts to an
event put in from outside too (log 11), are the model's choices. -/
def Obligations.StepPerformsTheInvocation : Prop :=
  ∀ (s : State) (rest : List Turn) (ev : EventVec),
    s.cfg.valid = true → s.sched = .event ev :: rest →
    step s = onNext reactUart (exec (decodeEvent ev) { s with sched := rest })

/-- R73: every command is accepted (a fault apart, R134) and answered in the transition that performs it, and MAIN goes on to
its next one, except a legal `TXW` while `TX` is full: then MAIN keeps presenting the same word, and no
invocation makes it present another. That a held turn leaves port M without a response is the model's
form (log 6). -/
def Obligations.OnlyAFullTransmitChannelHoldsMain : Prop :=
  (∀ (s : State) (rest : List Turn) (cw : Word) (more : List MainItem),
    s.cfg.valid = true → s.sched = .main :: rest → s.main.prog = .word cw :: more →
    ((∃ d, decodeCommand cw = .instr (.txw d)) ∧ s.tx.wc - s.tx.rc = s.cfg.cTx →
      step s = .next { s with sched := rest, rw := none }) ∧
    (¬ ((∃ d, decodeCommand cw = .instr (.txw d)) ∧ s.tx.wc - s.tx.rc = s.cfg.cTx) →
      step s = .fault .cursorOverflow ∨
      ∃ t rw, step s = .next t ∧ t.rw = some rw ∧ t.main.prog = more ∧
        t.main.heard = s.main.heard ++ [rw])) ∧
  (∀ (s t : State) (rest : List Turn) (ev : EventVec),
    s.sched = .event ev :: rest → step s = .next t → t.main = s.main ∧ t.rw = s.rw)

/-- R134, R138: a step of a valid configuration goes on whenever neither write cursor is at its bound, so it
always does where `W` is unbounded. Three of the steps this covers are steps by the model's choice: MAIN's
turn with a held `TXW`, for which R73 and R102 have no transition (log 6), a turn whose step is not enabled
(log 7), and an empty list of turns (log 8). -/
def Obligations.EveryStepBelowTheBoundGoesOn : Prop :=
  ∀ s : State, s.cfg.valid = true → ¬ s.wcBound .rx → ¬ s.wcBound .tx → ∃ t, step s = .next t

/-- R146: the reference environment at reset, its steps, and how an invocation's outputs act on its UART.
That a turn whose step is not enabled is spent with no effect is the model's choice (log 7). -/
def Obligations.ReferenceEnvironmentSteps : Prop :=
  (∀ (p : Params) (draw : Nat), (State.resetFor p draw).uart = ⟨none, false, []⟩) ∧
  (∀ (s : State) (rest : List Turn) (b : Byte), s.cfg.valid = true → s.sched = .arrive b :: rest →
    (s.uart.rxp = none →
      step s = .next { s with sched := rest, uart := { s.uart with rxp := some b } }) ∧
    (s.uart.rxp ≠ none → step s = .next { s with sched := rest })) ∧
  (∀ (s : State) (rest : List Turn), s.cfg.valid = true → s.sched = .txdone :: rest →
    (s.uart.txb = true →
      step s = .next { s with sched := rest, uart := { s.uart with txb := false } }) ∧
    (s.uart.txb = false → step s = .next { s with sched := rest })) ∧
  (∀ (s : State) (rest : List Turn), s.cfg.valid = true → s.sched = .fire :: rest →
    ((s.uart.rxp ≠ none ∨ (s.uart.txb = false ∧ s.txie = true)) →
      ∃ ev : EventVec, ev.getLsbD 9 = s.uart.rxp.isSome ∧ ev.getLsbD 8 = !s.uart.txb ∧
        (∀ b, s.uart.rxp = some b → ev.extractLsb' 0 8 = b) ∧
        step s = onNext reactUart (exec (decodeEvent ev) { s with sched := rest })) ∧
    (¬ (s.uart.rxp ≠ none ∨ (s.uart.txb = false ∧ s.txie = true)) →
      step s = .next { s with sched := rest })) ∧
  (∀ (s : State) (o : OutVec), s.out = some o →
    reactUart s = { s with uart :=
      { rxp := if o.getLsbD 9 then none else s.uart.rxp,
        txb := if o.getLsbD 8 then true else s.uart.txb,
        line := if o.getLsbD 8 then s.uart.line ++ [o.extractLsb' 0 8] else s.uart.line } })

/-! ## Port-M commands: what each does, and what it leaves -/

/-- R101: `TXPUSH`, in every state: `OVERFLOW` and nothing written where `TX` is full; else the fault
at the cursor bound; else the byte stored at the slot of `TX.wc`, `TX.wc` advanced, `TXIE` set and `OK`
answered, every other byte and field as before. -/
def Obligations.TxpushEnqueuesOrAnswersOverflow : Prop :=
  (∀ cw : Word, cw &&& 0xFFFFFF00#32 = 0x18000000#32 →
    decodeCommand cw = .instr (.txpush (cw.extractLsb' 0 8))) ∧
  ∀ (d : Byte) (s : State),
    (s.tx.wc - s.tx.rc = s.cfg.cTx →
      exec (.txpush d) s = .next { s with rw := some 0x10000000#32 }) ∧
    (s.tx.wc - s.tx.rc ≠ s.cfg.cTx → s.wcBound .tx →
      exec (.txpush d) s = .fault .cursorOverflow) ∧
    (s.tx.wc - s.tx.rc ≠ s.cfg.cTx → ¬ s.wcBound .tx →
      ∃ t, exec (.txpush d) s = .next t ∧
        t = { s with tx := ⟨t.tx.storage, s.tx.wc + 1, s.tx.rc⟩, txie := true,
                     rw := some 0x00000000#32 } ∧
        ∀ ch a, t.byteAt ch a =
          if ch = .tx ∧ a = s.tx.wc % s.cfg.cTx then d else s.byteAt ch a)

/-- R102: `TXW`, in every state: held, with nothing written and no response, where `TX` is full; else as
`TXPUSH`. That a hold is "port M carries no response" in the state is the model's form of it (log 6). -/
def Obligations.TxwEnqueuesOrIsHeld : Prop :=
  (∀ cw : Word, cw &&& 0xFFFFFF00#32 = 0x28000000#32 →
    decodeCommand cw = .instr (.txw (cw.extractLsb' 0 8))) ∧
  ∀ (d : Byte) (s : State),
    (s.tx.wc - s.tx.rc = s.cfg.cTx → exec (.txw d) s = .next { s with rw := none }) ∧
    (s.tx.wc - s.tx.rc ≠ s.cfg.cTx → s.wcBound .tx →
      exec (.txw d) s = .fault .cursorOverflow) ∧
    (s.tx.wc - s.tx.rc ≠ s.cfg.cTx → ¬ s.wcBound .tx →
      ∃ t, exec (.txw d) s = .next t ∧
        t = { s with tx := ⟨t.tx.storage, s.tx.wc + 1, s.tx.rc⟩, txie := true,
                     rw := some 0x00000000#32 } ∧
        ∀ ch a, t.byteAt ch a =
          if ch = .tx ∧ a = s.tx.wc % s.cfg.cTx then d else s.byteAt ch a)

/-- R112: `RXPOP`, in every state: `NOVALUE` and nothing written where `RX` is empty; else the byte at
the slot of `RX.rc` answered with `OK` and `RX.rc` advanced, `FLAG` and everything else as before. -/
def Obligations.RxpopReturnsTheOldestByteOrNoValue : Prop :=
  decodeCommand 0x30000000#32 = .instr .rxpop ∧
  ∀ s : State,
    (s.rx.wc = s.rx.rc → exec .rxpop s = .next { s with rw := some 0x20000000#32 }) ∧
    (s.rx.wc ≠ s.rx.rc →
      exec .rxpop s = .next
        { s with rx := ⟨s.rx.storage, s.rx.wc, s.rx.rc + 1⟩,
                 rw := some ((s.byteAt .rx (s.rx.rc % s.cfg.cRx)).setWidth 32) })

/-- R113: `RXPEEK idx`, in every state: `NOVALUE` where `idx >= len(RX)`, else the byte at slot
`(RX.rc + idx) mod C_RX`; no state written. `RXPEEK 0` answers what `RXPOP` would, and repeating the
command gives the same answer. -/
def Obligations.RxpeekReadsWithoutRemoving : Prop :=
  (∀ cw : Word, cw &&& 0xFF000000#32 = 0x40000000#32 →
    decodeCommand cw = .instr (.rxpeek (cw.extractLsb' 0 24).toNat)) ∧
  (∀ (idx : Nat) (s : State),
    (s.rx.wc - s.rx.rc ≤ idx →
      exec (.rxpeek idx) s = .next { s with rw := some 0x20000000#32 }) ∧
    (idx < s.rx.wc - s.rx.rc →
      exec (.rxpeek idx) s = .next
        { s with rw := some ((s.byteAt .rx ((s.rx.rc + idx) % s.cfg.cRx)).setWidth 32) })) ∧
  (∀ (s t u : State), s.rx.rc ≤ s.rx.wc →
    exec (.rxpeek 0) s = .next t → exec .rxpop s = .next u → t.rw = u.rw) ∧
  (∀ (idx : Nat) (s t : State), exec (.rxpeek idx) s = .next t → exec (.rxpeek idx) t = .next t)

/-- R114 (its pseudocode): `FLAGRD` answers `FLAG` and writes no state. -/
def Obligations.FlagrdAnswersTheFlag : Prop :=
  decodeCommand 0x80000000#32 = .instr .flagrd ∧
  ∀ s : State, exec .flagrd s =
    .next { s with rw := some (if s.flag then 0x00000001#32 else 0x00000000#32) }

/-- R115: `FLAGCLR` writes `FLAG` to 0 whatever it was, answers `OK` with 0, and touches nothing else. -/
def Obligations.FlagclrClearsTheFlag : Prop :=
  decodeCommand 0x90000000#32 = .instr .flagclr ∧
  ∀ s : State, exec .flagclr s = .next { s with flag := false, rw := some 0x00000000#32 }

/-- R125 (its pseudocode): `EMPTY ch` answers 1 iff the cursors are equal, and writes no state. -/
def Obligations.EmptyAnswersWhetherCursorsAreEqual : Prop :=
  ∀ (ch : Channel) (s : State), exec (.empty ch) s =
    .next { s with rw := some (if (s.buf ch).wc = (s.buf ch).rc then 1#32 else 0#32) }

/-- R126 (its pseudocode): `FULL ch` answers 1 iff the difference of the cursors is `C`, and writes no
state. -/
def Obligations.FullAnswersWhetherDifferenceIsCapacity : Prop :=
  ∀ (ch : Channel) (s : State), exec (.full ch) s =
    .next { s with
      rw := some (if (s.buf ch).wc - (s.buf ch).rc = s.cfg.capacity ch then 1#32 else 0#32) }

/-- R127 (its pseudocode): `LEN ch` answers the difference of the cursors in 24 bits, and writes no
state. -/
def Obligations.LenAnswersTheDifferenceOfTheCursors : Prop :=
  ∀ (ch : Channel) (s : State), exec (.len ch) s =
    .next { s with rw := some ((BitVec.ofNat 24 ((s.buf ch).wc - (s.buf ch).rc)).setWidth 32) }

/-! ## Port-I invocations: what each does, and what it leaves -/

/-- R152: `IRQ.NONE` produces `OUT = 0` and writes no state; under the firing condition of R137 no
vector is of this class. -/
def Obligations.IrqNoneDoesNothing : Prop :=
  (∀ s : State, exec .irqNone s = .next { s with out := some 0x000#10 }) ∧
  (∀ (ev : EventVec) (txie : Bool), firingCondition ev txie = true → decodeEvent ev ≠ .irqNone)

/-- R103: `IRQ.TX`, in every state: on an empty `TX` no hardware write and `TXIE` cleared; else exactly
one byte, the one at the slot of `TX.rc`, is written to the hardware and `TX.rc` advanced, and `TXIE`
is cleared if the channel became empty and left as it was if not. It never faults. -/
def Obligations.IrqTxSendsOneByteOrDisables : Prop :=
  (∀ ev : EventVec, ev &&& 0x300#10 = 0x100#10 → decodeEvent ev = .irqTx) ∧
  ∀ s : State,
    (s.tx.wc = s.tx.rc → exec .irqTx s = .next { s with txie := false, out := some 0x000#10 }) ∧
    (s.tx.wc ≠ s.tx.rc →
      exec .irqTx s = .next
        { s with tx := ⟨s.tx.storage, s.tx.wc, s.tx.rc + 1⟩,
                 txie := if s.tx.wc = s.tx.rc + 1 then false else s.txie,
                 out := some (0b01#2 ++ s.byteAt .tx (s.tx.rc % s.cfg.cTx)) })

/-- R111: `IRQ.RX`, in every state: the fault at the cursor bound with nothing written; else one byte is
read and stored at the slot of `RX.wc`, `RX.wc` advanced, `RX.rc` advanced iff `RX` was full, and `FLAG`
set; `TXIE`, `TX` and every other byte as before. -/
def Obligations.IrqRxStoresTheByteAndSetsTheFlag : Prop :=
  (∀ ev : EventVec, ev &&& 0x300#10 = 0x200#10 →
    decodeEvent ev = .irqRx (ev.extractLsb' 0 8)) ∧
  ∀ (d : Byte) (s : State),
    (s.wcBound .rx → exec (.irqRx d) s = .fault .cursorOverflow) ∧
    (¬ s.wcBound .rx →
      ∃ t, exec (.irqRx d) s = .next t ∧
        t = { s with
          rx := ⟨t.rx.storage, s.rx.wc + 1,
            if s.rx.wc - s.rx.rc = s.cfg.cRx then s.rx.rc + 1 else s.rx.rc⟩,
          flag := true, out := some 0x200#10 } ∧
        ∀ ch a, t.byteAt ch a =
          if ch = .rx ∧ a = s.rx.wc % s.cfg.cRx then d else s.byteAt ch a)

/-- R138: an invocation, whatever its vector and state: the RX branch iff `rx_full`, and independently
the TX branch iff `tx_ready`, in one transition with one `OUT`; where the RX branch faults nothing is
written. The last clause gives the block's whole new state for `IRQ.RXTX`. -/
def Obligations.InvocationRunsTheBranchesItsPredicatesGate : Prop :=
  ∀ (ev : EventVec) (s : State),
    (ev.getLsbD 9 = true ∧ s.wcBound .rx → exec (decodeEvent ev) s = .fault .cursorOverflow) ∧
    (¬ (ev.getLsbD 9 = true ∧ s.wcBound .rx) →
      ∃ t, exec (decodeEvent ev) s = .next t ∧
        t = { s with
          rx := if ev.getLsbD 9 then
              ⟨t.rx.storage, s.rx.wc + 1,
                if s.rx.wc - s.rx.rc = s.cfg.cRx then s.rx.rc + 1 else s.rx.rc⟩
            else s.rx,
          flag := if ev.getLsbD 9 then true else s.flag,
          tx := if ev.getLsbD 8 = true ∧ s.tx.wc ≠ s.tx.rc then
              ⟨s.tx.storage, s.tx.wc, s.tx.rc + 1⟩
            else s.tx,
          txie := if ev.getLsbD 8 = true ∧ (s.tx.wc = s.tx.rc ∨ s.tx.wc = s.tx.rc + 1) then false
            else s.txie,
          out := some (BitVec.ofBool (ev.getLsbD 9) ++
            (if ev.getLsbD 8 = true ∧ s.tx.wc ≠ s.tx.rc then
              1#1 ++ s.byteAt .tx (s.tx.rc % s.cfg.cTx) else 0#9)) } ∧
        ∀ ch a, t.byteAt ch a =
          if ev.getLsbD 9 = true ∧ ch = .rx ∧ a = s.rx.wc % s.cfg.cRx then ev.extractLsb' 0 8
          else s.byteAt ch a)

/-- R138, R139: `IRQ.RXTX` completes wherever its RX branch does, evicts, stores, sets `FLAG`, and sends
the oldest transmit byte in the same transition. -/
def Obligations.IrqRxTxDoesBothBranches : Prop :=
  ∀ (d : Byte) (s : State),
    (s.wcBound .rx → exec (.irqRxTx d) s = .fault .cursorOverflow) ∧
    (¬ s.wcBound .rx →
      ∃ t, exec (.irqRxTx d) s = .next t ∧
        t = { s with
          rx := ⟨t.rx.storage, s.rx.wc + 1,
            if s.rx.wc - s.rx.rc = s.cfg.cRx then s.rx.rc + 1 else s.rx.rc⟩,
          flag := true,
          tx := if s.tx.wc = s.tx.rc then s.tx else ⟨s.tx.storage, s.tx.wc, s.tx.rc + 1⟩,
          txie := if s.tx.wc = s.tx.rc ∨ s.tx.wc = s.tx.rc + 1 then false else s.txie,
          out := some (if s.tx.wc = s.tx.rc then 0x200#10
            else 0b11#2 ++ s.byteAt .tx (s.tx.rc % s.cfg.cTx)) } ∧
        ∀ ch a, t.byteAt ch a =
          if ch = .rx ∧ a = s.rx.wc % s.cfg.cRx then d else s.byteAt ch a)

/-- R139, D20: the order of the two branches is not observable: `IRQ.RXTX` leaves what `IRQ.RX` then
`IRQ.TX` leave, and what `IRQ.TX` then `IRQ.RX` leave, and its `OUT` joins their two. -/
def Obligations.BranchOrderIsNotObservable : Prop :=
  ∀ (d : Byte) (s t1 t2 u1 u2 : State),
    exec (.irqRx d) s = .next t1 → exec .irqTx t1 = .next t2 →
    exec .irqTx s = .next u1 → exec (.irqRx d) u1 = .next u2 →
    ∃ t o1 o2, exec (.irqRxTx d) s = .next t ∧ t1.out = some o1 ∧ t2.out = some o2 ∧
      t = { t2 with out := some (o1 ||| o2) } ∧ t = { u2 with out := some (o1 ||| o2) }

/-! ## Frames and roles -/

/-- R43: the one byte of storage an instruction writes, if it writes one: every other byte of both
arrays reads as before, for every instruction. -/
def Obligations.OnlyTheStoredSlotChanges : Prop :=
  ∀ (i : Instr) (s t : State), exec i s = .next t →
    ∀ ch a, storesTo i s ≠ some (ch, a) → t.byteAt ch a = s.byteAt ch a

/-- R32, R144: who writes what. A command never writes `RX.wc`, `RX.storage`, `TX.rc` or `OUT`, never sets
`FLAG` and never clears `TXIE`; an invocation never writes `TX.wc`, `TX.storage` or `RW`, never clears
`FLAG` and never sets `TXIE`; and no instruction writes the configuration, the draw or the other agents. -/
def Obligations.EachContextWritesOnlyItsOwnFields : Prop :=
  ∀ (i : Instr) (s t : State), exec i s = .next t →
    (t.cfg = s.cfg ∧ t.draw = s.draw ∧ t.main = s.main ∧ t.uart = s.uart ∧ t.sched = s.sched) ∧
    (i.isCommand = true →
      t.rx.wc = s.rx.wc ∧ t.rx.storage = s.rx.storage ∧ t.tx.rc = s.tx.rc ∧ t.out = s.out ∧
      (t.flag = true → s.flag = true) ∧ (s.txie = true → t.txie = true)) ∧
    (i.isCommand = false →
      t.tx.wc = s.tx.wc ∧ t.tx.storage = s.tx.storage ∧ t.rw = s.rw ∧
      (s.flag = true → t.flag = true) ∧ (t.txie = true → s.txie = true))

/-- R134, R150: exactly when an instruction faults, and that none is refused. -/
def Obligations.FaultsAreExactlyCursorOverflow : Prop :=
  (∀ (i : Instr) (s : State), (∃ r, exec i s = .fault r) ↔
    ((∃ d, i = .txpush d ∨ i = .txw d) ∧ s.tx.wc - s.tx.rc ≠ s.cfg.cTx ∧ s.wcBound .tx) ∨
    ((∃ d, i = .irqRx d ∨ i = .irqRxTx d) ∧ s.wcBound .rx)) ∧
  (∀ (i : Instr) (s : State) (r : Refusal), exec i s ≠ .refused r)

/-- R128: equal status commands answer equally, no sequence of them changes what any later command
answers or does, and the answer depends on the two cursors (and the capacity) alone. -/
def Obligations.StatusCommandsAreIdempotent : Prop :=
  (∀ (i : Instr) (s t : State), i.isStatus = true → exec i s = .next t → exec i t = .next t) ∧
  (∀ (is : List Instr) (s : State), (∀ i ∈ is, i.isStatus = true) →
    ∃ t, runAll is s = .next t ∧ { t with rw := s.rw } = s ∧
      ∀ i, i.isCommand = true → exec i t = exec i s) ∧
  (∀ (i : Instr) (s t s' t' : State), i.isStatus = true → s.cfg = t.cfg →
    (∀ ch, (s.buf ch).wc = (t.buf ch).wc ∧ (s.buf ch).rc = (t.buf ch).rc) →
    exec i s = .next s' → exec i t = .next t' → s'.rw = t'.rw)

/-- R62: the form of every response: bits 27:24 are 0, the status is 0 to 3 (an illegal word's, 3,
included), and the value is 0 where the status is not `OK`. -/
def Obligations.EveryResponseHasTheResponseFormat : Prop :=
  ∀ (cw : Word) (s t : State) (rw : Word), runCommand cw s = .next t → t.rw = some rw →
    rw.extractLsb' 24 4 = 0#4 ∧ rw.extractLsb' 28 4 ≤ 3#4 ∧
      (rw.extractLsb' 28 4 ≠ 0#4 → rw.extractLsb' 0 24 = 0#24)

/-- R64, R106: the form of every output vector: `rd` is 1 iff the RX branch ran, `wr` is 1 iff the TX
branch ran on a non-empty `TX`, and `wdata` is then the oldest byte and else 0. -/
def Obligations.EveryOutputVectorHasTheOutputFormat : Prop :=
  ∀ (ev : EventVec) (s t : State), exec (decodeEvent ev) s = .next t →
    ∃ o, t.out = some o ∧ o.getLsbD 9 = ev.getLsbD 9 ∧
      (o.getLsbD 8 = true ↔ ev.getLsbD 8 = true ∧ s.tx.wc ≠ s.tx.rc) ∧
      (o.getLsbD 8 = true → o.extractLsb' 0 8 = s.byteAt .tx (s.tx.rc % s.cfg.cTx)) ∧
      (o.getLsbD 8 = false → o.extractLsb' 0 8 = 0#8)

/-! ## Laws of the channels -/

/-- R90, FIFO law on the transmit side: bytes pushed in order onto any contents, with room for them, are
handed to the hardware in that order behind what was there. -/
def Obligations.TransmitChannelIsFifo : Prop :=
  ∀ (s : State) (bs : List Byte), s.Inv →
    (s.tx.wc - s.tx.rc) + bs.length ≤ s.cfg.cTx → s.room .tx bs.length →
    ∃ t, runAll (bs.map .txpush) s = .next t ∧
      sentBy ((s.contents .tx).length + bs.length) t = s.contents .tx ++ bs

/-- R90, FIFO law on the receive side: bytes received in order with no eviction are popped in that
order behind what was there, and then there is no value. -/
def Obligations.ReceiveChannelIsFifo : Prop :=
  ∀ (s : State) (bs : List Byte), s.Inv →
    (s.rx.wc - s.rx.rc) + bs.length ≤ s.cfg.cRx → s.room .rx bs.length →
    ∃ t, runAll (bs.map .irqRx) s = .next t ∧
      poppedBy ((s.contents .rx).length + bs.length + 1) t =
        (s.contents .rx ++ bs).map (fun b => b.setWidth 32) ++ [0x20000000#32]

/-- R91, drop-oldest law: after any receptions with no pop, `RX` holds the last `C_RX` of what it held and
received, in order; from a never-used channel `RX.rc = max(0, n - C)`. -/
def Obligations.ReceiveChannelDropsTheOldest : Prop :=
  ∀ (s : State) (bs : List Byte), s.Inv → s.room .rx bs.length →
    ∃ t, runAll (bs.map .irqRx) s = .next t ∧
      t.contents .rx = lastN s.cfg.cRx (s.contents .rx ++ bs) ∧
      t.rx.wc = s.rx.wc + bs.length ∧
      (s.rx.wc = 0 → t.rx.rc = bs.length - s.cfg.cRx)

/-- R107: no transmit byte is lost, duplicated or reordered, over any run: what has been put on the line,
followed by what is still in `TX`, is what was there followed by the bytes accepted, in order. The line is
that of the reference UART, which the outputs of every invocation act on (the model's choice, log 11). -/
def Obligations.NoTransmitByteIsLost : Prop :=
  ∀ (n : Nat) (s t : State), s.Inv → Host.Core.run Sys2Proof.core n s = .next t →
    t.uart.line ++ t.contents .tx = s.uart.line ++ s.contents .tx ++ acceptedBy n s

/-- R117: what `FLAG` means, step by step: 1 after an RX branch, 0 after `FLAGCLR`, and otherwise as it
was. -/
def Obligations.FlagRecordsReceiveSinceLastClear : Prop :=
  ∀ s t : State, step s = .next t →
    ((∃ d, s.performs = some (.irqRx d) ∨ s.performs = some (.irqRxTx d)) → t.flag = true) ∧
    (s.performs = some .flagclr → t.flag = false) ∧
    ((∀ d, s.performs ≠ some (.irqRx d) ∧ s.performs ≠ some (.irqRxTx d)) →
      s.performs ≠ some .flagclr → t.flag = s.flag)

/-- R120: immediately after any RX branch the newest occupied position holds the byte received, and
`RXPEEK` of the newest index answers it. -/
def Obligations.NewestReceivedByteIsInTheChannel : Prop :=
  ∀ (d : Byte) (s t : State), s.Inv →
    (exec (.irqRx d) s = .next t ∨ exec (.irqRxTx d) s = .next t) →
    1 ≤ t.rx.wc - t.rx.rc ∧ t.byteAt .rx ((t.rx.wc - 1) % t.cfg.cRx) = d ∧
      exec (.rxpeek (t.rx.wc - t.rx.rc - 1)) t = .next { t with rw := some (d.setWidth 32) }

/-- R86, R84: the two reads of `RX` in terms of its contents, oldest first: what each answers, and what a
pop leaves. -/
def Obligations.PeekAndPopReadTheContentsInOrder : Prop :=
  ∀ s : State, s.Inv →
    (∀ idx, exec (.rxpeek idx) s = .next
      { s with rw := some (match (s.contents .rx)[idx]? with
        | some b => b.setWidth 32
        | none => 0x20000000#32) }) ∧
    (∃ t, exec .rxpop s = .next t ∧
      t.rw = some (match (s.contents .rx).head? with
        | some b => b.setWidth 32
        | none => 0x20000000#32) ∧
      t.contents .rx = (s.contents .rx).tail)

/-- R167: a pop and an evicting reception of a full `RX` always give one of the two serial orders. -/
def Obligations.PopAndEvictingReceptionAreSerial : Prop :=
  ∀ (d b : Byte) (rest : List Byte) (s : State), s.Inv → ¬ s.wcBound .rx →
    s.rx.wc - s.rx.rc = s.cfg.cRx → s.contents .rx = b :: rest →
    (∃ t u, exec .rxpop s = .next t ∧ exec (.irqRx d) t = .next u ∧
      u.rw = some (b.setWidth 32) ∧ u.contents .rx = rest ++ [d]) ∧
    (∃ t u c rest', exec (.irqRx d) s = .next t ∧ exec .rxpop t = .next u ∧
      rest ++ [d] = c :: rest' ∧ u.rw = some (c.setWidth 32) ∧ u.contents .rx = rest')

/-- R168: what MAIN has observed survives any invocations between the observation and the command that
acts on it. -/
def Obligations.ObservationsSurviveInvocations : Prop :=
  ∀ (es : List Instr) (s t : State), s.Inv → (∀ e ∈ es, e.isCommand = false) →
    runAll es s = .next t →
    (s.rx.wc ≠ s.rx.rc →
      ∃ (b : Byte) (u : State), exec .rxpop t = .next u ∧ u.rw = some (b.setWidth 32)) ∧
    (∀ idx, idx < s.rx.wc - s.rx.rc →
      ∃ (b : Byte) (u : State), exec (.rxpeek idx) t = .next u ∧ u.rw = some (b.setWidth 32)) ∧
    (s.tx.wc - s.tx.rc ≠ s.cfg.cTx → ¬ s.wcBound .tx →
      ∀ d, ∃ u, exec (.txpush d) t = .next u ∧ u.rw = some 0x00000000#32) ∧
    (s.tx.wc = s.tx.rc → t.tx.wc = t.tx.rc) ∧
    t.tx.wc - t.tx.rc ≤ s.tx.wc - s.tx.rc

/-- R104: while `TX` is not full, `TXW` and `TXPUSH` have the same effect and response. -/
def Obligations.TxwIsTxpushWhileNotFull : Prop :=
  ∀ (d : Byte) (s : State), s.tx.wc - s.tx.rc ≠ s.cfg.cTx → exec (.txw d) s = exec (.txpush d) s

/-- R102, R143: a held `TXW` is accepted as soon as the idle transmitter's event has been served: two
turns of the reference environment and MAIN (the model's form of them, log 7, 10 and 11). -/
def Obligations.HeldTxwIsAcceptedAfterOneTransmitEvent : Prop :=
  ∀ (s : State) (rest : List Turn) (d : Byte) (cw : Word) (more : List MainItem),
    s.Inv → s.InvTxie → ¬ s.wcBound .rx → ¬ s.wcBound .tx →
    s.tx.wc - s.tx.rc = s.cfg.cTx → s.uart.txb = false →
    s.sched = .fire :: .main :: rest → s.main.prog = .word cw :: more →
    decodeCommand cw = .instr (.txw d) →
    ∃ t, Host.Core.run Sys2Proof.core 2 s = .next t ∧ t.main.prog = more ∧
      t.rw = some 0x00000000#32 ∧ t.contents .tx = (s.contents .tx).tail ++ [d]

/-- R119: `HIST` with no invocation inside, whatever comes after it, emits, for each byte value of the
occupied region in ascending order, how often it occurs there, and changes neither channel. (Turns and MAIN
as plain data are the model's, log 7 and 10.) -/
def Obligations.HistogramCountsTheOccupiedRegion : Prop :=
  ∀ (s : State) (rest : List Turn) (more : List MainItem), s.Inv →
    s.sched = List.replicate (s.rx.wc - s.rx.rc + 1) .main ++ rest → s.main.prog = .hist :: more →
    ∃ t, Host.Core.run Sys2Proof.core (s.rx.wc - s.rx.rc + 1) s = .next t ∧
      t.main.prog = more ∧ t.sched = rest ∧ t.rx = s.rx ∧ t.tx = s.tx ∧
      t.main.emitted = s.main.emitted ++
        (List.range 256).filterMap fun v =>
          if (s.contents .rx).count (BitVec.ofNat 8 v) = 0 then none
          else some (BitVec.ofNat 8 v, (s.contents .rx).count (BitVec.ofNat 8 v))

/-- R71: `DRAIN` with no invocation inside, whatever comes after it, pops until `NOVALUE`: its result is the
contents in order, and `RX` is left empty. (Turns and MAIN as plain data are the model's, log 7 and 10.) -/
def Obligations.DrainReturnsTheWholeChannel : Prop :=
  ∀ (s : State) (rest : List Turn) (more : List MainItem), s.Inv →
    s.sched = List.replicate (s.rx.wc - s.rx.rc + 1) .main ++ rest → s.main.prog = .drain :: more →
    ∃ t, Host.Core.run Sys2Proof.core (s.rx.wc - s.rx.rc + 1) s = .next t ∧
      t.main.prog = more ∧ t.sched = rest ∧ t.rx.rc = t.rx.wc ∧ t.flag = s.flag ∧
      t.main.heard = s.main.heard ++
        (s.contents .rx).map (fun b => b.setWidth 32) ++ [0x20000000#32]

/-- R90, for the primitives themselves: on either channel, bytes inserted in order by successful calls of
either policy with no eviction among them (`B.rc` is then as it was) are removed by `rb_pop` in that order,
behind what was there; and with room for them every insertion is successful and none evicts. Any byte
values, any valid capacity. -/
def Obligations.RingBufferIsFifo : Prop :=
  ∀ (s : State) (ch : Channel) (ps : List (Policy × Byte)), s.Inv →
    (∀ t, insertAll ch ps s = some t → (t.buf ch).rc = (s.buf ch).rc →
      ∀ n, (s.contents ch).length + ps.length ≤ n →
        popAll ch n t = s.contents ch ++ ps.map Prod.snd) ∧
    ((s.contents ch).length + ps.length ≤ s.cfg.capacity ch → s.room ch ps.length →
      ∃ t, insertAll ch ps s = some t ∧ (t.buf ch).rc = (s.buf ch).rc)
end

