-- ==== Sys2Proof/Laws/Decode.lean ====
section
/-! SUPPORT. What each row of the opcode map says of the fields, and the fields of an assembled word. -/

namespace Sys2Proof

theorem hits_iff (r : OpRow) (cw : Word) : r.hits cw = true ↔ cw &&& r.mask = r.pattern := by
  simp [OpRow.hits]

/-! ## The rows, field by field (R66) -/

theorem rowTxpush_hits (cw : Word) : rowTxpush.hits cw = true ↔
    cwOp cw = 0x1#4 ∧ cwCh cw = true ∧ cwRsv cw = 0#3 ∧ cwPad cw = 0#16 := by
  rw [hits_iff]
  simp only [BitVec.eq_of_getLsbD_eq_iff, rowTxpush, cwOp, cwCh, cwRsv, cwPad, BitVec.getLsbD_and,
    BitVec.getLsbD_extractLsb']
  simp [Nat.forall_lt_succ_right, Nat.le_one_iff_eq_zero_or_eq_one]
  tauto

theorem rowTxw_hits (cw : Word) : rowTxw.hits cw = true ↔
    cwOp cw = 0x2#4 ∧ cwCh cw = true ∧ cwRsv cw = 0#3 ∧ cwPad cw = 0#16 := by
  rw [hits_iff]
  simp only [BitVec.eq_of_getLsbD_eq_iff, rowTxw, cwOp, cwCh, cwRsv, cwPad, BitVec.getLsbD_and,
    BitVec.getLsbD_extractLsb']
  simp [Nat.forall_lt_succ_right, Nat.le_one_iff_eq_zero_or_eq_one]
  tauto

theorem rowRxpop_hits (cw : Word) : rowRxpop.hits cw = true ↔
    cwOp cw = 0x3#4 ∧ cwCh cw = false ∧ cwRsv cw = 0#3 ∧ cwArg cw = 0#24 := by
  rw [hits_iff]
  simp only [BitVec.eq_of_getLsbD_eq_iff, rowRxpop, cwOp, cwCh, cwRsv, cwArg, BitVec.getLsbD_and,
    BitVec.getLsbD_extractLsb']
  simp [Nat.forall_lt_succ_right, Nat.le_one_iff_eq_zero_or_eq_one]
  tauto

theorem rowRxpeek_hits (cw : Word) : rowRxpeek.hits cw = true ↔
    cwOp cw = 0x4#4 ∧ cwCh cw = false ∧ cwRsv cw = 0#3 := by
  rw [hits_iff]
  simp only [BitVec.eq_of_getLsbD_eq_iff, rowRxpeek, cwOp, cwCh, cwRsv, BitVec.getLsbD_and,
    BitVec.getLsbD_extractLsb']
  simp [Nat.forall_lt_succ_right, Nat.le_one_iff_eq_zero_or_eq_one]
  tauto

theorem rowEmpty_hits (cw : Word) : rowEmpty.hits cw = true ↔
    cwOp cw = 0x5#4 ∧ cwRsv cw = 0#3 ∧ cwArg cw = 0#24 := by
  rw [hits_iff]
  simp only [BitVec.eq_of_getLsbD_eq_iff, rowEmpty, cwOp, cwRsv, cwArg, BitVec.getLsbD_and,
    BitVec.getLsbD_extractLsb']
  simp [Nat.forall_lt_succ_right, Nat.le_one_iff_eq_zero_or_eq_one]
  tauto

theorem rowFull_hits (cw : Word) : rowFull.hits cw = true ↔
    cwOp cw = 0x6#4 ∧ cwRsv cw = 0#3 ∧ cwArg cw = 0#24 := by
  rw [hits_iff]
  simp only [BitVec.eq_of_getLsbD_eq_iff, rowFull, cwOp, cwRsv, cwArg, BitVec.getLsbD_and,
    BitVec.getLsbD_extractLsb']
  simp [Nat.forall_lt_succ_right, Nat.le_one_iff_eq_zero_or_eq_one]
  tauto

theorem rowLen_hits (cw : Word) : rowLen.hits cw = true ↔
    cwOp cw = 0x7#4 ∧ cwRsv cw = 0#3 ∧ cwArg cw = 0#24 := by
  rw [hits_iff]
  simp only [BitVec.eq_of_getLsbD_eq_iff, rowLen, cwOp, cwRsv, cwArg, BitVec.getLsbD_and,
    BitVec.getLsbD_extractLsb']
  simp [Nat.forall_lt_succ_right, Nat.le_one_iff_eq_zero_or_eq_one]
  tauto

theorem rowFlagrd_hits (cw : Word) : rowFlagrd.hits cw = true ↔
    cwOp cw = 0x8#4 ∧ cwCh cw = false ∧ cwRsv cw = 0#3 ∧ cwArg cw = 0#24 := by
  rw [hits_iff]
  simp only [BitVec.eq_of_getLsbD_eq_iff, rowFlagrd, cwOp, cwCh, cwRsv, cwArg, BitVec.getLsbD_and,
    BitVec.getLsbD_extractLsb']
  simp [Nat.forall_lt_succ_right, Nat.le_one_iff_eq_zero_or_eq_one]
  tauto

theorem rowFlagclr_hits (cw : Word) : rowFlagclr.hits cw = true ↔
    cwOp cw = 0x9#4 ∧ cwCh cw = false ∧ cwRsv cw = 0#3 ∧ cwArg cw = 0#24 := by
  rw [hits_iff]
  simp only [BitVec.eq_of_getLsbD_eq_iff, rowFlagclr, cwOp, cwCh, cwRsv, cwArg, BitVec.getLsbD_and,
    BitVec.getLsbD_extractLsb']
  simp [Nat.forall_lt_succ_right, Nat.le_one_iff_eq_zero_or_eq_one]
  tauto

/-! ## The fields of an assembled command word (R61) -/

/-- A bit of an assembled command word. -/
theorem getLsbD_commandWord (op : BitVec 4) (ch : Bool) (arg : BitVec 24) (i : Nat) :
    (commandWord op ch arg).getLsbD i =
      if i < 24 then arg.getLsbD i
      else if i < 27 then false
      else if i < 28 then (i == 27 && ch)
      else op.getLsbD (i - 28) := by
  unfold commandWord
  rw [BitVec.getLsbD_append, BitVec.getLsbD_append, BitVec.getLsbD_append]
  by_cases h1 : i < 24
  · simp [h1]
  · by_cases h2 : i < 27
    · have h3 : i - 24 < 3 := by omega
      simp [h1, h2, h3]
    · have h3 : ¬ i - 24 < 3 := by omega
      by_cases h4 : i < 28
      · have h5 : i = 27 := by omega
        simp [h5]
      · have h6 : ¬ i - 24 - 3 < 1 := by omega
        have h7 : i - 24 - 3 - 1 = i - 28 := by omega
        simp only [h1, h2, h3, h4, h6, h7, if_false]

@[simp] theorem cwOp_commandWord (op : BitVec 4) (ch : Bool) (arg : BitVec 24) :
    cwOp (commandWord op ch arg) = op := by
  refine BitVec.eq_of_getLsbD_eq fun i hi => ?_
  simp only [cwOp, BitVec.getLsbD_extractLsb', getLsbD_commandWord]
  rw [if_neg (by omega), if_neg (by omega), if_neg (by omega)]
  simp [hi]

@[simp] theorem cwCh_commandWord (op : BitVec 4) (ch : Bool) (arg : BitVec 24) :
    cwCh (commandWord op ch arg) = ch := by
  rw [cwCh, getLsbD_commandWord]
  simp

@[simp] theorem cwRsv_commandWord (op : BitVec 4) (ch : Bool) (arg : BitVec 24) :
    cwRsv (commandWord op ch arg) = 0#3 := by
  refine BitVec.eq_of_getLsbD_eq fun i hi => ?_
  simp only [cwRsv, BitVec.getLsbD_extractLsb', getLsbD_commandWord]
  rw [if_neg (by omega), if_pos (by omega)]
  simp

@[simp] theorem cwArg_commandWord (op : BitVec 4) (ch : Bool) (arg : BitVec 24) :
    cwArg (commandWord op ch arg) = arg := by
  refine BitVec.eq_of_getLsbD_eq fun i hi => ?_
  simp only [cwArg, BitVec.getLsbD_extractLsb', getLsbD_commandWord]
  rw [if_pos (by omega)]
  simp [hi]

/-- `data` is the low byte of `arg`, and `CW[23:8]` the rest of it (R61). -/
theorem cwData_eq (cw : Word) : cwData cw = (cwArg cw).extractLsb' 0 8 := by
  refine BitVec.eq_of_getLsbD_eq fun i hi => ?_
  simp only [cwData, cwArg, BitVec.getLsbD_extractLsb']
  have : i < 24 := by omega
  simp [hi, this]

theorem cwPad_eq (cw : Word) : cwPad cw = (cwArg cw).extractLsb' 8 16 := by
  refine BitVec.eq_of_getLsbD_eq fun i hi => ?_
  simp only [cwPad, cwArg, BitVec.getLsbD_extractLsb']
  have : 8 + i < 24 := by omega
  simp [this]

/-! ## The fields of an assembled event vector (R63) -/

/-- A bit of an assembled event vector. -/
theorem getLsbD_eventVector (f r : Bool) (d : Byte) (i : Nat) :
    (eventVector f r d).getLsbD i =
      if i < 8 then d.getLsbD i else if i < 9 then r else (i == 9 && f) := by
  unfold eventVector
  rw [BitVec.getLsbD_append, BitVec.getLsbD_append]
  split
  · rfl
  · split
    · rw [if_pos (by omega)]
      have : i = 8 := by omega
      subst this
      simp
    · rw [if_neg (by omega)]
      by_cases h : i = 9
      · subst h; simp
      · have : ¬ (i - 8 - 1 = 0) := by omega
        simp [h, this]

@[simp] theorem evRxFull_eventVector (f r : Bool) (d : Byte) : evRxFull (eventVector f r d) = f := by
  rw [evRxFull, getLsbD_eventVector]
  simp

@[simp] theorem evTxReady_eventVector (f r : Bool) (d : Byte) : evTxReady (eventVector f r d) = r := by
  rw [evTxReady, getLsbD_eventVector]
  simp

@[simp] theorem evRxData_eventVector (f r : Bool) (d : Byte) : evRxData (eventVector f r d) = d := by
  refine BitVec.eq_of_getLsbD_eq fun i hi => ?_
  simp only [evRxData, BitVec.getLsbD_extractLsb', getLsbD_eventVector]
  rw [if_pos (by omega)]
  simp [hi]

/-! ## What the decoder answers (R66, R68) -/

/-- The ten answers of the decoder on port M, each with the row the word matched. -/
theorem decodeCommand_cases (cw : Word) :
   (rowTxpush.hits cw = true ∧ decodeCommand cw = .instr (.txpush (cwData cw))) ∨
   (rowTxw.hits cw = true ∧ decodeCommand cw = .instr (.txw (cwData cw))) ∨
   (rowRxpop.hits cw = true ∧ decodeCommand cw = .instr .rxpop) ∨
   (rowRxpeek.hits cw = true ∧ decodeCommand cw = .instr (.rxpeek (cwIdx cw))) ∨
   (rowEmpty.hits cw = true ∧ decodeCommand cw = .instr (.empty (cwChannel cw))) ∨
   (rowFull.hits cw = true ∧ decodeCommand cw = .instr (.full (cwChannel cw))) ∨
   (rowLen.hits cw = true ∧ decodeCommand cw = .instr (.len (cwChannel cw))) ∨
   (rowFlagrd.hits cw = true ∧ decodeCommand cw = .instr .flagrd) ∨
   (rowFlagclr.hits cw = true ∧ decodeCommand cw = .instr .flagclr) ∨
   ((∀ r ∈ opRows, r.hits cw = false) ∧ decodeCommand cw = .illegal (illegalCase cw)) := by
  unfold decodeCommand
  by_cases h1 : rowTxpush.hits cw = true
  · exact .inl ⟨h1, by rw [if_pos h1]⟩
  rw [if_neg h1]; refine .inr ?_
  by_cases h2 : rowTxw.hits cw = true
  · exact .inl ⟨h2, by rw [if_pos h2]⟩
  rw [if_neg h2]; refine .inr ?_
  by_cases h3 : rowRxpop.hits cw = true
  · exact .inl ⟨h3, by rw [if_pos h3]⟩
  rw [if_neg h3]; refine .inr ?_
  by_cases h4 : rowRxpeek.hits cw = true
  · exact .inl ⟨h4, by rw [if_pos h4]⟩
  rw [if_neg h4]; refine .inr ?_
  by_cases h5 : rowEmpty.hits cw = true
  · exact .inl ⟨h5, by rw [if_pos h5]⟩
  rw [if_neg h5]; refine .inr ?_
  by_cases h6 : rowFull.hits cw = true
  · exact .inl ⟨h6, by rw [if_pos h6]⟩
  rw [if_neg h6]; refine .inr ?_
  by_cases h7 : rowLen.hits cw = true
  · exact .inl ⟨h7, by rw [if_pos h7]⟩
  rw [if_neg h7]; refine .inr ?_
  by_cases h8 : rowFlagrd.hits cw = true
  · exact .inl ⟨h8, by rw [if_pos h8]⟩
  rw [if_neg h8]; refine .inr ?_
  by_cases h9 : rowFlagclr.hits cw = true
  · exact .inl ⟨h9, by rw [if_pos h9]⟩
  rw [if_neg h9]; refine .inr ⟨?_, rfl⟩
  intro r hr
  simp only [opRows, List.mem_cons, List.not_mem_nil, or_false] at hr
  rcases hr with rfl | rfl | rfl | rfl | rfl | rfl | rfl | rfl | rfl <;> rw [Bool.eq_false_iff] <;> assumption

/-- No two rows match one word. -/
theorem opRows_disjoint : ∀ r ∈ opRows, ∀ q ∈ opRows, ∀ cw,
    r.hits cw = true → q.hits cw = true → r = q := by
  intro r hr q hq cw h1 h2
  simp only [opRows, List.mem_cons, List.not_mem_nil, or_false] at hr hq
  rcases hr with rfl | rfl | rfl | rfl | rfl | rfl | rfl | rfl | rfl <;>
  simp only [rowTxpush_hits, rowTxw_hits, rowRxpop_hits, rowRxpeek_hits, rowEmpty_hits, rowFull_hits, rowLen_hits, rowFlagrd_hits, rowFlagclr_hits] at h1 <;>
  rcases hq with rfl | rfl | rfl | rfl | rfl | rfl | rfl | rfl | rfl <;> first | rfl | (
  exfalso
  simp only [rowTxpush_hits, rowTxw_hits, rowRxpop_hits, rowRxpeek_hits, rowEmpty_hits, rowFull_hits, rowLen_hits, rowFlagrd_hits, rowFlagclr_hits] at h2
  have := h1.1.symm.trans h2.1
  revert this; decide)

end Sys2Proof
end

