-- ==== Sys2Proof/Laws/State.lean ====
section
/-! SUPPORT. One lemma per field per update, so that no proof unfolds a record update. -/

namespace Sys2Proof.Machine

/-! ## Reading an instance -/

@[simp] theorem buf_rx (s : State) : s.buf .rx = s.rx := rfl
@[simp] theorem buf_tx (s : State) : s.buf .tx = s.tx := rfl
@[simp] theorem capacity_rx (p : Params) : p.capacity .rx = p.cRx := rfl
@[simp] theorem capacity_tx (p : Params) : p.capacity .tx = p.cTx := rfl

/-! ## Writing an instance -/

@[simp] theorem setBuf_cfg (s : State) (ch : Channel) (b : RingBuffer) :
    (s.setBuf ch b).cfg = s.cfg := by cases ch <;> rfl
@[simp] theorem setBuf_draw (s : State) (ch : Channel) (b : RingBuffer) :
    (s.setBuf ch b).draw = s.draw := by cases ch <;> rfl
@[simp] theorem setBuf_flag (s : State) (ch : Channel) (b : RingBuffer) :
    (s.setBuf ch b).flag = s.flag := by cases ch <;> rfl
@[simp] theorem setBuf_txie (s : State) (ch : Channel) (b : RingBuffer) :
    (s.setBuf ch b).txie = s.txie := by cases ch <;> rfl
@[simp] theorem setBuf_rw (s : State) (ch : Channel) (b : RingBuffer) :
    (s.setBuf ch b).rw = s.rw := by cases ch <;> rfl
@[simp] theorem setBuf_out (s : State) (ch : Channel) (b : RingBuffer) :
    (s.setBuf ch b).out = s.out := by cases ch <;> rfl
@[simp] theorem setBuf_main (s : State) (ch : Channel) (b : RingBuffer) :
    (s.setBuf ch b).main = s.main := by cases ch <;> rfl
@[simp] theorem setBuf_uart (s : State) (ch : Channel) (b : RingBuffer) :
    (s.setBuf ch b).uart = s.uart := by cases ch <;> rfl
@[simp] theorem setBuf_sched (s : State) (ch : Channel) (b : RingBuffer) :
    (s.setBuf ch b).sched = s.sched := by cases ch <;> rfl

@[simp] theorem buf_setBuf_same (s : State) (ch : Channel) (b : RingBuffer) :
    (s.setBuf ch b).buf ch = b := by cases ch <;> rfl

theorem buf_setBuf_ne (s : State) (ch ch' : Channel) (b : RingBuffer) (h : ch' ≠ ch) :
    (s.setBuf ch b).buf ch' = s.buf ch' := by
  cases ch <;> cases ch' <;> first | rfl | exact absurd rfl h

@[simp] theorem setBuf_rx_rx (s : State) (b : RingBuffer) : (s.setBuf .rx b).rx = b := rfl
@[simp] theorem setBuf_rx_tx (s : State) (b : RingBuffer) : (s.setBuf .rx b).tx = s.tx := rfl
@[simp] theorem setBuf_tx_rx (s : State) (b : RingBuffer) : (s.setBuf .tx b).rx = s.rx := rfl
@[simp] theorem setBuf_tx_tx (s : State) (b : RingBuffer) : (s.setBuf .tx b).tx = b := rfl


/-! ## `FLAG <- 1` -/

@[simp] theorem setFlag_cfg (s : State) : (setFlag s).cfg = s.cfg := rfl
@[simp] theorem setFlag_draw (s : State) : (setFlag s).draw = s.draw := rfl
@[simp] theorem setFlag_rx (s : State) : (setFlag s).rx = s.rx := rfl
@[simp] theorem setFlag_tx (s : State) : (setFlag s).tx = s.tx := rfl
@[simp] theorem setFlag_flag (s : State) : (setFlag s).flag = true := rfl
@[simp] theorem setFlag_txie (s : State) : (setFlag s).txie = s.txie := rfl
@[simp] theorem setFlag_rw (s : State) : (setFlag s).rw = s.rw := rfl
@[simp] theorem setFlag_out (s : State) : (setFlag s).out = s.out := rfl
@[simp] theorem setFlag_main (s : State) : (setFlag s).main = s.main := rfl
@[simp] theorem setFlag_uart (s : State) : (setFlag s).uart = s.uart := rfl
@[simp] theorem setFlag_sched (s : State) : (setFlag s).sched = s.sched := rfl
@[simp] theorem setFlag_buf (s : State) (ch : Channel) : (setFlag s).buf ch = s.buf ch := by
  cases ch <;> rfl

/-! ## `FLAG <- 0` -/

@[simp] theorem clearFlag_cfg (s : State) : (clearFlag s).cfg = s.cfg := rfl
@[simp] theorem clearFlag_draw (s : State) : (clearFlag s).draw = s.draw := rfl
@[simp] theorem clearFlag_rx (s : State) : (clearFlag s).rx = s.rx := rfl
@[simp] theorem clearFlag_tx (s : State) : (clearFlag s).tx = s.tx := rfl
@[simp] theorem clearFlag_flag (s : State) : (clearFlag s).flag = false := rfl
@[simp] theorem clearFlag_txie (s : State) : (clearFlag s).txie = s.txie := rfl
@[simp] theorem clearFlag_rw (s : State) : (clearFlag s).rw = s.rw := rfl
@[simp] theorem clearFlag_out (s : State) : (clearFlag s).out = s.out := rfl
@[simp] theorem clearFlag_main (s : State) : (clearFlag s).main = s.main := rfl
@[simp] theorem clearFlag_uart (s : State) : (clearFlag s).uart = s.uart := rfl
@[simp] theorem clearFlag_sched (s : State) : (clearFlag s).sched = s.sched := rfl
@[simp] theorem clearFlag_buf (s : State) (ch : Channel) : (clearFlag s).buf ch = s.buf ch := by
  cases ch <;> rfl

/-! ## `TXIE <- 1` -/

@[simp] theorem enableTx_cfg (s : State) : (enableTx s).cfg = s.cfg := rfl
@[simp] theorem enableTx_draw (s : State) : (enableTx s).draw = s.draw := rfl
@[simp] theorem enableTx_rx (s : State) : (enableTx s).rx = s.rx := rfl
@[simp] theorem enableTx_tx (s : State) : (enableTx s).tx = s.tx := rfl
@[simp] theorem enableTx_flag (s : State) : (enableTx s).flag = s.flag := rfl
@[simp] theorem enableTx_txie (s : State) : (enableTx s).txie = true := rfl
@[simp] theorem enableTx_rw (s : State) : (enableTx s).rw = s.rw := rfl
@[simp] theorem enableTx_out (s : State) : (enableTx s).out = s.out := rfl
@[simp] theorem enableTx_main (s : State) : (enableTx s).main = s.main := rfl
@[simp] theorem enableTx_uart (s : State) : (enableTx s).uart = s.uart := rfl
@[simp] theorem enableTx_sched (s : State) : (enableTx s).sched = s.sched := rfl
@[simp] theorem enableTx_buf (s : State) (ch : Channel) : (enableTx s).buf ch = s.buf ch := by
  cases ch <;> rfl

/-! ## `TXIE <- 0` -/

@[simp] theorem disableTx_cfg (s : State) : (disableTx s).cfg = s.cfg := rfl
@[simp] theorem disableTx_draw (s : State) : (disableTx s).draw = s.draw := rfl
@[simp] theorem disableTx_rx (s : State) : (disableTx s).rx = s.rx := rfl
@[simp] theorem disableTx_tx (s : State) : (disableTx s).tx = s.tx := rfl
@[simp] theorem disableTx_flag (s : State) : (disableTx s).flag = s.flag := rfl
@[simp] theorem disableTx_txie (s : State) : (disableTx s).txie = false := rfl
@[simp] theorem disableTx_rw (s : State) : (disableTx s).rw = s.rw := rfl
@[simp] theorem disableTx_out (s : State) : (disableTx s).out = s.out := rfl
@[simp] theorem disableTx_main (s : State) : (disableTx s).main = s.main := rfl
@[simp] theorem disableTx_uart (s : State) : (disableTx s).uart = s.uart := rfl
@[simp] theorem disableTx_sched (s : State) : (disableTx s).sched = s.sched := rfl
@[simp] theorem disableTx_buf (s : State) (ch : Channel) : (disableTx s).buf ch = s.buf ch := by
  cases ch <;> rfl

/-! ## `hold` -/

@[simp] theorem hold_cfg (s : State) : (hold s).cfg = s.cfg := rfl
@[simp] theorem hold_draw (s : State) : (hold s).draw = s.draw := rfl
@[simp] theorem hold_rx (s : State) : (hold s).rx = s.rx := rfl
@[simp] theorem hold_tx (s : State) : (hold s).tx = s.tx := rfl
@[simp] theorem hold_flag (s : State) : (hold s).flag = s.flag := rfl
@[simp] theorem hold_txie (s : State) : (hold s).txie = s.txie := rfl
@[simp] theorem hold_rw (s : State) : (hold s).rw = none := rfl
@[simp] theorem hold_out (s : State) : (hold s).out = s.out := rfl
@[simp] theorem hold_main (s : State) : (hold s).main = s.main := rfl
@[simp] theorem hold_uart (s : State) : (hold s).uart = s.uart := rfl
@[simp] theorem hold_sched (s : State) : (hold s).sched = s.sched := rfl
@[simp] theorem hold_buf (s : State) (ch : Channel) : (hold s).buf ch = s.buf ch := by
  cases ch <;> rfl

/-! ## `respond` -/

@[simp] theorem respond_cfg (st : Status) (v : BitVec 24) (s : State) : (respond st v s).cfg = s.cfg := rfl
@[simp] theorem respond_draw (st : Status) (v : BitVec 24) (s : State) : (respond st v s).draw = s.draw := rfl
@[simp] theorem respond_rx (st : Status) (v : BitVec 24) (s : State) : (respond st v s).rx = s.rx := rfl
@[simp] theorem respond_tx (st : Status) (v : BitVec 24) (s : State) : (respond st v s).tx = s.tx := rfl
@[simp] theorem respond_flag (st : Status) (v : BitVec 24) (s : State) : (respond st v s).flag = s.flag := rfl
@[simp] theorem respond_txie (st : Status) (v : BitVec 24) (s : State) : (respond st v s).txie = s.txie := rfl
@[simp] theorem respond_rw (st : Status) (v : BitVec 24) (s : State) : (respond st v s).rw = some (responseWord st v) := rfl
@[simp] theorem respond_out (st : Status) (v : BitVec 24) (s : State) : (respond st v s).out = s.out := rfl
@[simp] theorem respond_main (st : Status) (v : BitVec 24) (s : State) : (respond st v s).main = s.main := rfl
@[simp] theorem respond_uart (st : Status) (v : BitVec 24) (s : State) : (respond st v s).uart = s.uart := rfl
@[simp] theorem respond_sched (st : Status) (v : BitVec 24) (s : State) : (respond st v s).sched = s.sched := rfl
@[simp] theorem respond_buf (st : Status) (v : BitVec 24) (s : State) (ch : Channel) : (respond st v s).buf ch = s.buf ch := by
  cases ch <;> rfl

/-! ## `produce OUT` -/

@[simp] theorem produceOut_cfg (o : OutVec) (s : State) : (produceOut o s).cfg = s.cfg := rfl
@[simp] theorem produceOut_draw (o : OutVec) (s : State) : (produceOut o s).draw = s.draw := rfl
@[simp] theorem produceOut_rx (o : OutVec) (s : State) : (produceOut o s).rx = s.rx := rfl
@[simp] theorem produceOut_tx (o : OutVec) (s : State) : (produceOut o s).tx = s.tx := rfl
@[simp] theorem produceOut_flag (o : OutVec) (s : State) : (produceOut o s).flag = s.flag := rfl
@[simp] theorem produceOut_txie (o : OutVec) (s : State) : (produceOut o s).txie = s.txie := rfl
@[simp] theorem produceOut_rw (o : OutVec) (s : State) : (produceOut o s).rw = s.rw := rfl
@[simp] theorem produceOut_out (o : OutVec) (s : State) : (produceOut o s).out = some o := rfl
@[simp] theorem produceOut_main (o : OutVec) (s : State) : (produceOut o s).main = s.main := rfl
@[simp] theorem produceOut_uart (o : OutVec) (s : State) : (produceOut o s).uart = s.uart := rfl
@[simp] theorem produceOut_sched (o : OutVec) (s : State) : (produceOut o s).sched = s.sched := rfl
@[simp] theorem produceOut_buf (o : OutVec) (s : State) (ch : Channel) :
    (produceOut o s).buf ch = s.buf ch := by cases ch <;> rfl

end Sys2Proof.Machine
end

