-- ==== Sys2Proof/Laws/Memory.lean ====
section
/-! SUPPORT. Storage: read after write, and the canonical form every write keeps. -/

namespace Sys2Proof.Machine

theorem Memory.read_write_same (m : Memory) (a : Nat) (v : Byte) :
    Memory.read (Memory.write m a v) a = some v := by
  induction m with
  | nil => simp [Memory.write, Memory.read]
  | cons x m ih =>
    obtain ⟨k, b⟩ := x
    unfold Memory.write
    split
    · simp [Memory.read]
    · split
      · simp [Memory.read]
      · rename_i h1 h2
        simp [Memory.read, Ne.symm h2, ih]

theorem Memory.read_write_ne (m : Memory) (a c : Nat) (v : Byte) (h : c ≠ a) :
    Memory.read (Memory.write m a v) c = Memory.read m c := by
  induction m with
  | nil => simp [Memory.write, Memory.read, Ne.symm h]
  | cons x m ih =>
    obtain ⟨k, b⟩ := x
    unfold Memory.write
    split
    · simp [Memory.read, Ne.symm h]
    · split
      · rename_i h1 h2
        subst h2
        simp [Memory.read, Ne.symm h]
      · simp [Memory.read, ih]

/-- Every address a write lists is the written one or was listed. -/
theorem Memory.mem_write {m : Memory} {a : Nat} {v : Byte} {x : Host.Cell}
    (h : x ∈ Memory.write m a v) : x.1 = a ∨ x ∈ m := by
  induction m with
  | nil => simp_all [Memory.write]
  | cons y m ih =>
    obtain ⟨k, b⟩ := y
    unfold Memory.write at h
    split at h
    · rcases List.mem_cons.1 h with rfl | h
      · exact .inl rfl
      · exact .inr h
    · split at h
      · rcases List.mem_cons.1 h with rfl | h
        · exact .inl rfl
        · exact .inr (List.mem_cons_of_mem _ h)
      · rcases List.mem_cons.1 h with rfl | h
        · exact .inr (by simp)
        · exact (ih h).imp id (List.mem_cons_of_mem _)

/-- A write keeps the canonical form. -/
theorem Memory.write_wf {m : Memory} (a : Nat) (v : Byte) (h : Memory.wf m) :
    Memory.wf (Memory.write m a v) := by
  induction m with
  | nil => simp [Memory.write, Memory.wf]
  | cons x m ih =>
    obtain ⟨k, b⟩ := x
    obtain ⟨hk, hm⟩ := List.pairwise_cons.1 h
    unfold Memory.write
    split
    · rename_i hak
      refine List.pairwise_cons.2 ⟨fun y hy => ?_, h⟩
      rcases List.mem_cons.1 hy with rfl | hy
      · exact hak
      · exact lt_trans hak (hk y hy)
    · split
      · rename_i hak
        subst hak
        exact List.pairwise_cons.2 ⟨hk, hm⟩
      · rename_i h1 h2
        refine List.pairwise_cons.2 ⟨fun y hy => ?_, ih hm⟩
        rcases Memory.mem_write hy with e | hy
        · simp only [e]; omega
        · exact hk y hy

/-- A write inside the space keeps every listed address inside it. -/
theorem Memory.write_within {c : Nat} {m : Memory} {a : Nat} (v : Byte) (ha : a < c)
    (h : Memory.within c m) : Memory.within c (Memory.write m a v) := by
  intro x hx
  rcases Memory.mem_write hx with e | hx
  · omega
  · exact h x hx

/-- In a wf memory, a write of the value that is listed changes nothing: equal contents, equal data. -/
theorem Memory.write_read {m : Memory} {a : Nat} {v : Byte} (hw : Memory.wf m)
    (h : Memory.read m a = some v) : Memory.write m a v = m := by
  induction m with
  | nil => simp [Memory.read] at h
  | cons x m ih =>
    obtain ⟨k, b⟩ := x
    obtain ⟨hk, hm⟩ := List.pairwise_cons.1 hw
    have mem : ∀ {m : Memory}, Memory.read m a = some v → ∃ y ∈ m, y.1 = a := by
      intro m
      induction m with
      | nil => intro h; simp [Memory.read] at h
      | cons y m ihm =>
        intro h
        by_cases e : y.1 = a
        · exact ⟨y, by simp, e⟩
        · simp only [Memory.read, e, if_false] at h
          obtain ⟨z, hz, e⟩ := ihm h
          exact ⟨z, List.mem_cons_of_mem _ hz, e⟩
    by_cases e : k = a
    · subst e
      have : b = v := by simpa [Memory.read] using h
      simp [Memory.write, this]
    · simp only [Memory.read, e, if_false] at h
      obtain ⟨y, hy, ey⟩ := mem h
      have hka : k < a := ey ▸ hk y hy
      have h1 : ¬ a < k := by omega
      have h2 : ¬ a = k := by omega
      simp [Memory.write, h1, h2, ih hm h]

end Sys2Proof.Machine
end

