-- ==== Sys2Proof/Laws/Ops.lean ====
section
/-! SUPPORT. One lemma per shared operation: what it answers, what it writes and what it keeps. -/

namespace Sys2Proof.Machine

/-! ## Reading one byte -/

/-- A byte read depends on the draw and the instance's storage alone. -/
theorem byteAt_congr {s t : State} {ch : Channel} (hd : t.draw = s.draw)
    (hb : (t.buf ch).storage = (s.buf ch).storage) (a : Nat) : t.byteAt ch a = s.byteAt ch a := by
  simp [State.byteAt, hd, hb]

@[simp] theorem byteAt_respond (st : Status) (v : BitVec 24) (s : State) (ch : Channel) (a : Nat) :
    (respond st v s).byteAt ch a = s.byteAt ch a := byteAt_congr rfl (by simp) a
@[simp] theorem byteAt_enableTx (s : State) (ch : Channel) (a : Nat) :
    (enableTx s).byteAt ch a = s.byteAt ch a := byteAt_congr rfl (by simp) a
@[simp] theorem byteAt_disableTx (s : State) (ch : Channel) (a : Nat) :
    (disableTx s).byteAt ch a = s.byteAt ch a := byteAt_congr rfl (by simp) a
@[simp] theorem byteAt_setFlag (s : State) (ch : Channel) (a : Nat) :
    (setFlag s).byteAt ch a = s.byteAt ch a := byteAt_congr rfl (by simp) a
@[simp] theorem byteAt_clearFlag (s : State) (ch : Channel) (a : Nat) :
    (clearFlag s).byteAt ch a = s.byteAt ch a := byteAt_congr rfl (by simp) a

/-! ## Cursors and the inserted byte -/

theorem advanceRc_eq (ch : Channel) (s : State) :
    advanceRc ch s = s.setBuf ch ⟨(s.buf ch).storage, (s.buf ch).wc, (s.buf ch).rc + 1⟩ := rfl

theorem insertByte_eq (ch : Channel) (b : Byte) (s : State) :
    insertByte ch b s = s.setBuf ch
      ⟨(s.buf ch).storage.write (s.slot ch (s.buf ch).wc) b, (s.buf ch).wc + 1, (s.buf ch).rc⟩ := by
  cases ch <;> rfl

@[simp] theorem byteAt_advanceRc (ch ch' : Channel) (s : State) (a : Nat) :
    (advanceRc ch s).byteAt ch' a = s.byteAt ch' a := by
  cases ch <;> cases ch' <;> rfl

/-- An insertion changes the one byte at the slot of the write cursor. -/
theorem byteAt_insertByte (ch ch' : Channel) (b : Byte) (s : State) (a : Nat) :
    (insertByte ch b s).byteAt ch' a =
      if ch' = ch ∧ a = s.slot ch (s.buf ch).wc then b else s.byteAt ch' a := by
  rw [insertByte_eq]
  by_cases hc : ch' = ch
  · subst hc
    by_cases ha : a = s.slot ch' (s.buf ch').wc
    · subst ha
      simp [State.byteAt, Memory.read_write_same]
    · simp [State.byteAt, ha, Memory.read_write_ne _ _ _ _ ha]
  · simp [State.byteAt, hc, buf_setBuf_ne s ch ch' _ hc]

/-! ## Tests -/

@[simp] theorem rbIsFull_iff (ch : Channel) (s : State) :
    rbIsFull ch s = true ↔ (s.buf ch).wc - (s.buf ch).rc = s.cfg.capacity ch := by
  simp [rbIsFull]

@[simp] theorem rbIsEmpty_iff (ch : Channel) (s : State) :
    rbIsEmpty ch s = true ↔ (s.buf ch).wc = (s.buf ch).rc := by
  simp [rbIsEmpty]

/-- The bound of R25 in words: it exists where `W` is finite and is `2^W - 1`. -/
theorem wcAtBound_iff (ch : Channel) (s : State) :
    wcAtBound ch s = true ↔ ∃ w, s.cfg.w = some w ∧ (s.buf ch).wc = 2 ^ w - 1 := by
  unfold wcAtBound Params.isBound
  cases h : s.cfg.w <;> simp

theorem valid_capacity_pos {p : Params} (h : p.valid = true) (ch : Channel) : 0 < p.capacity ch := by
  simp only [Params.valid, Bool.and_eq_true, decide_eq_true_eq] at h
  cases ch <;> simp <;> omega

theorem slot_lt {s : State} (h : s.cfg.valid = true) (ch : Channel) (p : Nat) :
    s.slot ch p < s.cfg.capacity ch := Nat.mod_lt _ (valid_capacity_pos h ch)

/-! ## The primitives that return something -/

/-- Everything `rb_push` can answer (R83). -/
theorem rbPush_cases (ch : Channel) (b : Byte) (s : State) :
    (rbIsFull ch s = true ∧ rbPush ch b s = .overflow) ∨
    (rbIsFull ch s = false ∧ wcAtBound ch s = true ∧ rbPush ch b s = .cursorOverflow) ∨
    (rbIsFull ch s = false ∧ wcAtBound ch s = false ∧ rbPush ch b s = .ok (insertByte ch b s)) := by
  unfold rbPush
  cases rbIsFull ch s <;> cases wcAtBound ch s <;> simp

/-- Everything `rb_push_drop_oldest` can answer: it never overflows (R85). -/
theorem rbPushDropOldest_cases (ch : Channel) (b : Byte) (s : State) :
    (wcAtBound ch s = true ∧ rbPushDropOldest ch b s = .cursorOverflow) ∨
    (wcAtBound ch s = false ∧ rbPushDropOldest ch b s = .ok (insertByte ch b (evictIfFull ch s))) := by
  unfold rbPushDropOldest
  cases wcAtBound ch s <;> simp

/-- Everything `rb_pop` can answer (R84). -/
theorem rbPop_cases (ch : Channel) (s : State) :
    (rbIsEmpty ch s = true ∧ rbPop ch s = none) ∨
    (rbIsEmpty ch s = false ∧
      rbPop ch s = some (s.byteAt ch (s.slot ch (s.buf ch).rc), advanceRc ch s)) := by
  unfold rbPop
  cases rbIsEmpty ch s <;> simp

/-- Everything the RX branch can answer (R111). -/
theorem rxBranch_cases (b : Byte) (s : State) :
    (wcAtBound .rx s = true ∧ rxBranch b s = none) ∨
    (wcAtBound .rx s = false ∧
      rxBranch b s = some (setFlag (insertByte .rx b (evictIfFull .rx s)))) := by
  unfold rxBranch
  rcases rbPushDropOldest_cases .rx b s with ⟨h, e⟩ | ⟨h, e⟩ <;> simp [h, e]

/-- Everything the TX branch can do (R103). -/
theorem txBranch_cases (s : State) :
    (s.tx.wc = s.tx.rc ∧ txBranch s = (disableTx s, none)) ∨
    (s.tx.wc ≠ s.tx.rc ∧ s.tx.wc = s.tx.rc + 1 ∧
      txBranch s = (disableTx (advanceRc .tx s), some (s.byteAt .tx (s.slot .tx s.tx.rc)))) ∨
    (s.tx.wc ≠ s.tx.rc ∧ s.tx.wc ≠ s.tx.rc + 1 ∧
      txBranch s = (advanceRc .tx s, some (s.byteAt .tx (s.slot .tx s.tx.rc)))) := by
  unfold txBranch rbPop rbIsEmpty
  by_cases h : s.tx.wc = s.tx.rc
  · simp [h]
  · by_cases h1 : s.tx.wc = s.tx.rc + 1 <;> simp [h, h1, advanceRc_eq]

/-! ## What an invocation answers -/

/-- Everything the RX half can answer. -/
theorem rxPart_cases (rx : Option Byte) (s : State) :
    (rx = none ∧ rxPart rx s = some s) ∨
    (∃ b, rx = some b ∧ wcAtBound .rx s = true ∧ rxPart rx s = none) ∨
    (∃ b, rx = some b ∧ wcAtBound .rx s = false ∧
      rxPart rx s = some (setFlag (insertByte .rx b (evictIfFull .rx s)))) := by
  cases rx with
  | none => exact .inl ⟨rfl, rfl⟩
  | some b =>
    rcases rxBranch_cases b s with ⟨h, e⟩ | ⟨h, e⟩
    · exact .inr (.inl ⟨b, rfl, h, e⟩)
    · exact .inr (.inr ⟨b, rfl, h, e⟩)

/-- An invocation faults exactly where its RX branch runs at the cursor bound (R134, R138). -/
theorem takeInterrupt_fault_iff (rx : Option Byte) (tr : Bool) (s : State) (r : Fault) :
    takeInterrupt rx tr s = .fault r ↔ rx.isSome = true ∧ wcAtBound .rx s = true := by
  unfold takeInterrupt
  rcases rxPart_cases rx s with ⟨h, e⟩ | ⟨b, h, hb, e⟩ | ⟨b, h, hb, e⟩ <;> rw [e] <;> cases r
  · simp [h]
  · simp [h, hb]
  · simp [h, hb]

/-- An invocation that goes on has done the RX half, then the TX half, and produced `OUT` (R138). -/
theorem takeInterrupt_next {rx : Option Byte} {tr : Bool} {s t : State}
    (h : takeInterrupt rx tr s = .next t) :
    ∃ s1, rxPart rx s = some s1 ∧
      t = produceOut (outVector rx.isSome (txPart tr s1).2) (txPart tr s1).1 := by
  unfold takeInterrupt at h
  split at h
  · simp at h
  · rename_i s1 e
    exact ⟨s1, e, by simpa using h.symm⟩

/-- An invocation is never refused. -/
theorem takeInterrupt_not_refused (rx : Option Byte) (tr : Bool) (s : State) (r : Refusal) :
    takeInterrupt rx tr s ≠ .refused r := by
  unfold takeInterrupt
  split <;> simp

/-! ## The invariant INV-RB under the operations that write a channel -/

theorem ringOk_congr {s t : State} {ch : Channel} (hc : t.cfg = s.cfg) (hb : t.buf ch = s.buf ch) :
    t.RingOk ch ↔ s.RingOk ch := by
  simp [State.RingOk, hc, hb]

theorem holdsCursor_succ {p : Params} {c : Nat} (h : holdsCursor p c = true)
    (hb : p.isBound c = false) : holdsCursor p (c + 1) = true := by
  unfold holdsCursor Params.isBound at *
  cases hw : p.w with
  | none => rfl
  | some w => simp [hw] at h hb ⊢; omega

/-- An insertion below the bound into a channel that is not full keeps INV-RB (R89). -/
theorem ringOk_insertByte {s : State} {ch : Channel} (b : Byte) (hv : s.cfg.valid = true)
    (h : s.RingOk ch) (hf : rbIsFull ch s = false) (hw : wcAtBound ch s = false) :
    (insertByte ch b s).RingOk ch := by
  obtain ⟨h1, h2, h3, h4, h5⟩ := h
  have hf' : (s.buf ch).wc - (s.buf ch).rc ≠ s.cfg.capacity ch := by simpa [rbIsFull] using hf
  rw [insertByte_eq]
  refine ⟨?_, ?_, ?_, ?_, ?_⟩
  · simp; omega
  · simp; omega
  · simpa using holdsCursor_succ h3 hw
  · simpa using Memory.write_wf _ b h4
  · simpa using Memory.write_within b (slot_lt hv ch _) h5

/-- A pop of a channel that is not empty keeps INV-RB (R89). -/
theorem ringOk_advanceRc {s : State} {ch : Channel} (h : s.RingOk ch)
    (he : (s.buf ch).wc ≠ (s.buf ch).rc) : (advanceRc ch s).RingOk ch := by
  obtain ⟨h1, h2, h3, h4, h5⟩ := h
  rw [advanceRc_eq]
  refine ⟨?_, ?_, ?_, ?_, ?_⟩ <;> simp
  · omega
  · omega
  · exact h3
  · exact h4
  · exact fun a b hab => h5 (a, b) hab

/-- After the eviction of R85 the channel is not full, and INV-RB holds. -/
theorem ringOk_evictIfFull {s : State} {ch : Channel} (hv : s.cfg.valid = true) (h : s.RingOk ch) :
    (evictIfFull ch s).RingOk ch ∧ rbIsFull ch (evictIfFull ch s) = false := by
  have hp := valid_capacity_pos hv ch
  unfold evictIfFull
  by_cases hf : rbIsFull ch s = true
  · have hf' := (rbIsFull_iff ch s).1 hf
    rw [if_pos hf]
    refine ⟨ringOk_advanceRc h (by omega), ?_⟩
    simp [rbIsFull, advanceRc_eq]
    omega
  · rw [if_neg hf]
    exact ⟨h, Bool.eq_false_iff.2 hf⟩

/-! ## Contents -/

/-- The contents depend on the configuration, the draw and the instance alone. -/
theorem contents_congr {s t : State} {ch : Channel} (hc : t.cfg = s.cfg) (hd : t.draw = s.draw)
    (hb : t.buf ch = s.buf ch) : t.contents ch = s.contents ch := by
  simp [State.contents, rbLen, State.slot, State.byteAt, hc, hd, hb]

theorem contents_length (s : State) (ch : Channel) : (s.contents ch).length = rbLen ch s := by
  simp [State.contents]

/-- The occupied positions map to pairwise distinct slots (R24). -/
theorem slots_distinct {c rc i j : Nat} (hi : i < c) (hj : j < c) (h : (rc + i) % c = (rc + j) % c) :
    i = j := by
  have : i ≡ j [MOD c] := Nat.ModEq.add_left_cancel' rc h
  exact Nat.ModEq.eq_of_lt_of_lt this hi hj

/-- An insertion into a channel that is not full appends the byte (R83, R90). -/
theorem contents_insertByte {s : State} {ch : Channel} (b : Byte) (h : s.RingOk ch)
    (hf : rbIsFull ch s = false) :
    (insertByte ch b s).contents ch = s.contents ch ++ [b] := by
  obtain ⟨h1, h2, -⟩ := h
  have hf' : (s.buf ch).wc - (s.buf ch).rc ≠ s.cfg.capacity ch := by simpa [rbIsFull] using hf
  have hlen : rbLen ch (insertByte ch b s) = rbLen ch s + 1 := by
    simp [rbLen, insertByte_eq]; omega
  have hrc : ((insertByte ch b s).buf ch).rc = (s.buf ch).rc := by simp [insertByte_eq]
  have hslot : ∀ p, (insertByte ch b s).slot ch p = s.slot ch p := by
    intro p; simp [State.slot, insertByte_eq]
  have hwc : (s.buf ch).wc = (s.buf ch).rc + rbLen ch s := by simp [rbLen]; omega
  unfold State.contents
  rw [hlen, List.range_succ, List.map_append, hrc]
  congr 1
  · refine List.map_congr_left fun i hi => ?_
    have hi : i < rbLen ch s := by simpa using hi
    rw [hslot, byteAt_insertByte, if_neg]
    rintro ⟨-, e⟩
    rw [hwc] at e
    have hlt : rbLen ch s < s.cfg.capacity ch := by simp [rbLen]; omega
    have := slots_distinct (by omega) hlt e
    omega
  · simp [hslot, byteAt_insertByte, hwc]

/-- A pop removes the oldest byte (R84, R90). -/
theorem contents_advanceRc {s : State} {ch : Channel} (h : (s.buf ch).rc < (s.buf ch).wc) :
    s.contents ch = s.byteAt ch (s.slot ch (s.buf ch).rc) :: (advanceRc ch s).contents ch := by
  have hlen : rbLen ch s = rbLen ch (advanceRc ch s) + 1 := by simp [rbLen, advanceRc_eq]; omega
  unfold State.contents
  rw [hlen, List.range_succ_eq_map, List.map_cons, List.map_map]
  congr 1
  refine List.map_congr_left fun i _ => ?_
  have hs : ∀ p, (advanceRc ch s).slot ch p = s.slot ch p := by
    intro p; simp [State.slot, advanceRc_eq]
  have hr : ((advanceRc ch s).buf ch).rc = (s.buf ch).rc + 1 := by simp [advanceRc_eq]
  rw [hs, byteAt_advanceRc, hr]
  simp [Nat.add_assoc, Nat.add_comm 1 i]

end Sys2Proof.Machine
end

