-- ==== Sys2Proof/Laws/Words.lean ====
section
/-! SUPPORT. The response words and output vectors as numbers, and their fields. -/

namespace Sys2Proof.Machine

theorem responseWord_illegal : responseWord .illegal 0#24 = 0x30000000#32 := by decide

theorem responseWord_ok : responseWord .ok 0#24 = 0x00000000#32 := by decide

theorem responseWord_overflow : responseWord .overflow 0#24 = 0x10000000#32 := by decide

theorem responseWord_noValue : responseWord .noValue 0#24 = 0x20000000#32 := by decide

theorem responseWord_byte (b : Byte) : responseWord .ok (byteValue b) = b.setWidth 32 := by
  refine BitVec.eq_of_getLsbD_eq fun i hi => ?_
  unfold responseWord byteValue Status.code
  rw [BitVec.getLsbD_append, BitVec.getLsbD_append]
  by_cases h : i < 24
  · simp [h, hi]
  · have h8 : ¬ i < 8 := by omega
    rw [if_neg h]
    split <;> simp [BitVec.getLsbD_of_ge b i (by omega)]

theorem responseWord_bool (b : Bool) :
    responseWord .ok (boolValue b) = if b then 1#32 else 0#32 := by cases b <;> decide

theorem responseWord_len (n : Nat) :
    responseWord .ok (lenValue n) = (BitVec.ofNat 24 n).setWidth 32 := by
  refine BitVec.eq_of_getLsbD_eq fun i hi => ?_
  unfold responseWord lenValue Status.code
  rw [BitVec.getLsbD_append, BitVec.getLsbD_append]
  by_cases h : i < 24
  · simp [h, hi]
  · rw [if_neg h]
    split <;> simp [BitVec.getLsbD_of_ge (BitVec.ofNat 24 n) i (by omega)]

/-- The three fields of a response word (R62). -/
theorem responseWord_fields (st : Status) (v : BitVec 24) :
    (responseWord st v).extractLsb' 24 4 = 0#4 ∧
    (responseWord st v).extractLsb' 28 4 = st.code ∧
    (responseWord st v).extractLsb' 0 24 = v := by
  refine ⟨?_, ?_, ?_⟩ <;> refine BitVec.eq_of_getLsbD_eq fun i hi => ?_ <;> simp only [responseWord, BitVec.getLsbD_extractLsb', BitVec.getLsbD_append]
  · rw [if_neg (by omega), if_pos (by omega)]; simp
  · rw [if_neg (by omega), if_neg (by omega)]; simp [hi, show 28 + i - 24 - 4 = i by omega]
  · rw [if_pos (by omega)]; simp [hi]

/-- The three fields of an output vector (R64). -/
theorem outVector_fields (rd : Bool) (w : Option Byte) :
    (outVector rd w).getLsbD 9 = rd ∧ (outVector rd w).getLsbD 8 = w.isSome ∧
    (outVector rd w).extractLsb' 0 8 = w.getD 0#8 := by
  revert rd w
  have : ∀ rd : Bool, ∀ b : Byte, (outVector rd (some b)).getLsbD 9 = rd ∧
      (outVector rd (some b)).getLsbD 8 = true ∧ (outVector rd (some b)).extractLsb' 0 8 = b := by decide
  intro rd w
  cases w with
  | none => revert rd; decide
  | some b => exact this rd b

end Sys2Proof.Machine
end

