-- ==== Sys2Proof/Laws/Exec.lean ====
section
/-! SUPPORT. What an invocation and an instruction can do, said once: the inversion lemmas of exec. -/

namespace Sys2Proof.Machine

/-! ## Invocations -/

/-- The RX branch below the bound. -/
theorem rxPart_some (d : Byte) (s : State) (h : wcAtBound .rx s = false) :
    rxPart (some d) s = some (setFlag (insertByte .rx d (evictIfFull .rx s))) := by
  rcases rxPart_cases (some d) s with ⟨h1, e⟩ | ⟨b, h1, hb, e⟩ | ⟨b, h1, hb, e⟩ <;> cases h1
  · simp [h] at hb
  · exact e

/-- The eviction and insertion of R85, as one update and one changed byte. -/
theorem insertEvict_eq (d : Byte) (s : State) :
    let t := insertByte .rx d (evictIfFull .rx s)
    t = { s with rx := ⟨t.rx.storage, s.rx.wc + 1,
            if s.rx.wc - s.rx.rc = s.cfg.cRx then s.rx.rc + 1 else s.rx.rc⟩ } ∧
    ∀ ch a, t.byteAt ch a =
      if ch = .rx ∧ a = s.rx.wc % s.cfg.cRx then d else s.byteAt ch a := by
  constructor
  · unfold evictIfFull
    by_cases h : rbIsFull .rx s = true
    · have h' : s.rx.wc - s.rx.rc = s.cfg.cRx := by simpa using h
      simp [h', insertByte_eq, advanceRc, State.setBuf]
    · have h' : ¬ s.rx.wc - s.rx.rc = s.cfg.cRx := by simpa using h
      simp [h', insertByte_eq, State.setBuf]
  · intro ch a
    rw [byteAt_insertByte]
    have h1 : (evictIfFull .rx s).slot .rx ((evictIfFull .rx s).buf .rx).wc = s.rx.wc % s.cfg.cRx := by
      unfold evictIfFull; split <;> simp [State.slot, advanceRc_eq]
    have h2 : (evictIfFull .rx s).byteAt ch a = s.byteAt ch a := by
      unfold evictIfFull; split <;> simp
    rw [h1, h2]

/-- The whole next state of an invocation that does not fault (R138). -/
theorem takeInterrupt_ok (rx : Option Byte) (tr : Bool) (s : State)
    (h : rx.isSome = true → wcAtBound .rx s = false) :
   ∃ t, takeInterrupt rx tr s = .next t ∧
        t = { s with
          rx := if rx.isSome then
              ⟨t.rx.storage, s.rx.wc + 1,
                if s.rx.wc - s.rx.rc = s.cfg.cRx then s.rx.rc + 1 else s.rx.rc⟩
            else s.rx,
          flag := if rx.isSome then true else s.flag,
          tx := if tr = true ∧ s.tx.wc ≠ s.tx.rc then
              ⟨s.tx.storage, s.tx.wc, s.tx.rc + 1⟩
            else s.tx,
          txie := if tr = true ∧ (s.tx.wc = s.tx.rc ∨ s.tx.wc = s.tx.rc + 1) then false
            else s.txie,
          out := some (outVector rx.isSome
            (if tr = true ∧ s.tx.wc ≠ s.tx.rc then some (s.byteAt .tx (s.tx.rc % s.cfg.cTx)) else none)) } ∧
        (∀ ch a, t.byteAt ch a =
          if ch = .rx ∧ a = s.rx.wc % s.cfg.cRx then rx.getD (s.byteAt ch a)
          else s.byteAt ch a) ∧
        (∀ b, rx = some b → t.rx = (insertByte .rx b (evictIfFull .rx s)).rx) := by
  have tp : ∀ u : State, u.tx = s.tx → u.cfg = s.cfg → u.draw = s.draw → u.txie = s.txie →
     (txPart tr u).2 = (if tr = true ∧ s.tx.wc ≠ s.tx.rc then some (s.byteAt .tx (s.tx.rc % s.cfg.cTx)) else none) ∧
     (txPart tr u).1 = { u with
            tx := if tr = true ∧ s.tx.wc ≠ s.tx.rc then ⟨s.tx.storage, s.tx.wc, s.tx.rc + 1⟩ else s.tx,
            txie := if tr = true ∧ (s.tx.wc = s.tx.rc ∨ s.tx.wc = s.tx.rc + 1) then false
            else s.txie } := by
    intro u h1 h2 h3 h4
    have hb : u.byteAt .tx (s.tx.rc % s.cfg.cTx) = s.byteAt .tx (s.tx.rc % s.cfg.cTx) := by simp [State.byteAt, h1, h3]
    cases tr with
    | false => simp [txPart, ← h1, ← h4]
    | true =>
      rcases txBranch_cases u with ⟨g, e⟩ | ⟨g, g2, e⟩ | ⟨g, g2, e⟩
      · simp [txPart, e, ← h1, g, disableTx]
      · rw [h1] at g g2
        simp [txPart, e, h1, g2, disableTx, advanceRc, State.setBuf, State.slot, h2, hb]
      · rw [h1] at g g2
        simp [txPart, e, h1, g, g2, advanceRc, State.setBuf, State.slot, h2, hb, ← h4]
  cases rx with
  | none =>
    obtain ⟨t1, t2⟩ := tp s rfl rfl rfl rfl
    refine ⟨_, rfl, ?_, ?_, by simp⟩
    · simp only [t1, t2]; simp [produceOut]
    · intro ch a
      simp only [t2]
      have : ∀ ch, ((produceOut (outVector (none : Option Byte).isSome (txPart tr s).2) { s with
            tx := if tr = true ∧ s.tx.wc ≠ s.tx.rc then ⟨s.tx.storage, s.tx.wc, s.tx.rc + 1⟩ else s.tx,
            txie := if tr = true ∧ (s.tx.wc = s.tx.rc ∨ s.tx.wc = s.tx.rc + 1) then false
            else s.txie }).buf ch).storage = (s.buf ch).storage := by
        intro ch; cases ch
        · rfl
        · simp; split <;> rfl
      rw [byteAt_congr (by rfl) (this ch)]; simp
  | some d =>
    have hb := h rfl
    obtain ⟨h1, h2⟩ := insertEvict_eq d s
    obtain ⟨t1, t2⟩ := tp (setFlag (insertByte .rx d (evictIfFull .rx s))) (by rw [h1]; rfl) (by rw [h1]; rfl) (by rw [h1]; rfl) (by rw [h1]; rfl)
    refine ⟨_, by rw [takeInterrupt, rxPart_some d s hb], ?_, ?_, ?_⟩
    · simp only [t1, t2]
      generalize insertByte .rx d (evictIfFull .rx s) = u at *
      conv_lhs => rw [h1]
      simp [produceOut, setFlag]
    · intro ch a
      simp only [t2]
      generalize insertByte .rx d (evictIfFull .rx s) = u at *
      simp only [Option.getD_some, ← h2]
      cases ch
      · rfl
      · apply byteAt_congr
        · rfl
        · rw [h1]; simp; split <;> rfl
    · intro b hb
      cases hb
      simp [t2]

/-- An invocation whose RX branch ran was below the bound. -/
theorem takeInterrupt_next_bound {rx : Option Byte} {tr : Bool} {s t : State}
    (h : takeInterrupt rx tr s = .next t) : rx.isSome = true → wcAtBound .rx s = false := by
  intro hr
  obtain ⟨s1, e, -⟩ := takeInterrupt_next h
  rcases rxPart_cases rx s with ⟨h1, _⟩ | ⟨b, h1, hb, e'⟩ | ⟨b, h1, hb, e'⟩
  · simp [h1] at hr
  · rw [e] at e'; cases e'
  · exact hb

/-- Every event class is the one shared operation. -/
theorem exec_event (ev : EventVec) (s : State) : exec (decodeEvent ev) s =
    takeInterrupt (if evRxFull ev then some (evRxData ev) else none) (evTxReady ev) s := by
  unfold decodeEvent
  cases evRxFull ev <;> cases evTxReady ev <;> rfl

/-! ## Instructions -/

/-- What a command that goes on leaves: the same block with another response, an accepted push, a pop,
or a cleared `FLAG`. -/
theorem exec_command_cases (i : Instr) (h : i.isCommand = true) (s t : State)
    (hx : exec i s = .next t) :
    ((rbIsFull .tx s = true ∨ txData i = none) ∧ ∃ rw, t = { s with rw := rw }) ∨
    (∃ d, (i = .txpush d ∨ i = .txw d) ∧ rbIsFull .tx s = false ∧ wcAtBound .tx s = false ∧
      t = respond .ok 0#24 (enableTx (insertByte .tx d s))) ∨
    (i = .rxpop ∧ s.rx.wc ≠ s.rx.rc ∧ ∃ rw, t = { advanceRc .rx s with rw := rw }) ∨
    (i = .flagclr ∧ ∃ rw, t = { s with flag := false, rw := rw }) := by
  cases i with
  | txpush d =>
    rcases rbPush_cases .tx d s with ⟨a, e⟩ | ⟨_, _, e⟩ | ⟨a, b, e⟩ <;> simp only [exec, execTxpush, e] at hx <;>
      cases hx
    · exact .inl ⟨.inl a, _, rfl⟩
    · exact .inr (.inl ⟨d, .inl rfl, a, b, rfl⟩)
  | txw d =>
    rcases rbPush_cases .tx d s with ⟨a, e⟩ | ⟨_, _, e⟩ | ⟨a, b, e⟩ <;> simp only [exec, execTxw, e] at hx <;>
      cases hx
    · exact .inl ⟨.inl a, _, rfl⟩
    · exact .inr (.inl ⟨d, .inr rfl, a, b, rfl⟩)
  | rxpop =>
    rcases rbPop_cases .rx s with ⟨g, e⟩ | ⟨g, e⟩ <;> simp only [exec, execRxpop, e] at hx <;>
      cases hx
    · exact .inl ⟨.inr rfl, _, rfl⟩
    · exact .inr (.inr (.inl ⟨rfl, by simpa [rbIsEmpty] using g, _, rfl⟩))
  | rxpeek n =>
    simp only [exec, execRxpeek] at hx
    split at hx <;> cases hx <;> exact .inl ⟨.inr rfl, _, rfl⟩
  | flagclr => cases hx; exact .inr (.inr (.inr ⟨rfl, _, rfl⟩))
  | empty ch => cases hx; exact .inl ⟨.inr rfl, _, rfl⟩
  | full ch => cases hx; exact .inl ⟨.inr rfl, _, rfl⟩
  | len ch => cases hx; exact .inl ⟨.inr rfl, _, rfl⟩
  | flagrd => cases hx; exact .inl ⟨.inr rfl, _, rfl⟩
  | irqNone => cases h
  | irqTx => cases h
  | irqRx d => cases h
  | irqRxTx d => cases h

/-- What an instruction may do to the block when it goes on: the two channels, `TXIE` and `FLAG`. -/
def Effect (i : Instr) (s t : State) : Prop :=
   t.cfg = s.cfg ∧ t.draw = s.draw ∧
   -- TX side
   ((t.tx = s.tx ∧ t.txie = s.txie ∧ (rbIsFull .tx s = true ∨ txData i = none)) ∨
    (∃ d, txData i = some d ∧ rbIsFull .tx s = false ∧ wcAtBound .tx s = false ∧
      t.tx = (insertByte .tx d s).tx ∧ t.txie = true) ∨
    ((i = .irqTx ∨ ∃ d, i = .irqRxTx d) ∧ s.tx.wc = s.tx.rc ∧ t.tx = s.tx ∧ t.txie = false) ∨
    ((i = .irqTx ∨ ∃ d, i = .irqRxTx d) ∧ s.tx.wc ≠ s.tx.rc ∧ t.tx = (advanceRc .tx s).tx ∧
      t.txie = if s.tx.wc = s.tx.rc + 1 then false else s.txie)) ∧
   -- RX side
   ((t.rx = s.rx ∧ (t.flag = s.flag ∨ i = .flagclr ∧ t.flag = false) ∧
      ∀ d, i ≠ .irqRx d ∧ i ≠ .irqRxTx d) ∨
    (i = .rxpop ∧ s.rx.wc ≠ s.rx.rc ∧ t.rx = (advanceRc .rx s).rx ∧ t.flag = s.flag) ∨
    (∃ d, (i = .irqRx d ∨ i = .irqRxTx d) ∧ wcAtBound .rx s = false ∧
      t.rx = (insertByte .rx d (evictIfFull .rx s)).rx ∧ t.flag = true))

/-- Everything an instruction that goes on can have done to the block. -/
theorem exec_effect {i : Instr} {s t : State} (h : exec i s = .next t) : Effect i s t := by
  have key : ∀ (rx : Option Byte) (tr : Bool), takeInterrupt rx tr s = .next t → 
      (tr = true ↔ (i = .irqTx ∨ ∃ d, i = .irqRxTx d)) →
      (∀ d, rx = some d ↔ (i = .irqRx d ∨ i = .irqRxTx d)) →
      i.isCommand = false → Effect i s t := by
    intro rx tr h htr hrx hc
    have htd : txData i = none := by cases i <;> first | rfl | cases hc
    have hcl : i ≠ .flagclr := by rintro rfl; cases hc
    obtain ⟨t', h', ht, -, hr⟩ := takeInterrupt_ok rx tr s (takeInterrupt_next_bound h)
    have hb := takeInterrupt_next_bound h
    rw [h] at h'; cases h'
    have hrx' := congrArg State.rx ht
    have htx' := congrArg State.tx ht
    have hf' := congrArg State.flag ht
    have hie' := congrArg State.txie ht
    have hcc := congrArg State.cfg ht
    have hdd := congrArg State.draw ht
    refine ⟨hcc, hdd, ?_, ?_⟩
    · rw [htx', hie']
      cases tr with
      | false => exact .inl ⟨by simp, by simp, .inr htd⟩
      | true =>
        by_cases g : s.tx.wc = s.tx.rc
        · exact .inr (.inr (.inl ⟨htr.1 rfl, g, by simp [g], by simp [g]⟩))
        · exact .inr (.inr (.inr ⟨htr.1 rfl, g, by simp [g, advanceRc, State.setBuf], by simp [g]⟩))
    · cases rx with
      | none => 
        refine .inl ⟨by rw [hrx']; rfl, .inl (by rw [hf']; rfl), fun d => ?_⟩
        have := hrx d; simp only [reduceCtorEq, false_iff, not_or] at this; exact this
      | some d =>
        exact .inr (.inr ⟨d, (hrx d).1 rfl, hb rfl, hr d rfl, by rw [hf']; rfl⟩)
  cases hc : i.isCommand
  · cases i with
    | irqNone => exact key none false h (by simp) (by simp) rfl
    | irqTx => exact key none true h (by simp) (by simp) rfl
    | irqRx d => exact key (some d) false h (by simp) (by simp) rfl
    | irqRxTx d => exact key (some d) true h (by simp) (by simp) rfl
    | _ => cases hc
  · have hni : ∀ d, i ≠ .irqRx d ∧ i ≠ .irqRxTx d := by intro d; cases i <;> simp <;> cases hc
    rcases exec_command_cases i hc s t h with ⟨hx, rw, rfl⟩ | ⟨d, hd, hf, hb, rfl⟩ | ⟨rfl, g, rw, rfl⟩ | ⟨rfl, rw, rfl⟩
    · exact ⟨rfl, rfl, .inl ⟨rfl, rfl, hx⟩, .inl ⟨rfl, .inl rfl, hni⟩⟩
    · refine ⟨by simp [insertByte_eq], by simp [insertByte_eq],
        .inr (.inl ⟨d, by rcases hd with rfl | rfl <;> rfl, hf, hb, rfl, rfl⟩),
        .inl ⟨by simp [insertByte_eq], .inl (by simp [insertByte_eq]), hni⟩⟩
    · exact ⟨rfl, rfl, .inl ⟨rfl, rfl, .inr rfl⟩, .inr (.inl ⟨rfl, g, rfl, rfl⟩)⟩
    · exact ⟨rfl, rfl, .inl ⟨rfl, rfl, .inr rfl⟩, .inl ⟨rfl, .inr ⟨rfl, rfl⟩, hni⟩⟩

end Sys2Proof.Machine
end

