-- ==== Sys2Proof/Laws/PerInstr.lean ====
section
/-! SUPPORT. Laws of the syntax, one lemma per constructor of Instr. -/

namespace Sys2Proof.Laws

/-- The opcode row of a command; an event class has none. -/
def rowOf : Instr → Option OpRow
  | .txpush _ => some rowTxpush
  | .txw _ => some rowTxw
  | .rxpop => some rowRxpop
  | .rxpeek _ => some rowRxpeek
  | .empty _ => some rowEmpty
  | .full _ => some rowFull
  | .len _ => some rowLen
  | .flagrd => some rowFlagrd
  | .flagclr => some rowFlagclr
  | .irqNone | .irqTx | .irqRx _ | .irqRxTx _ => none

/-- The encoder puts a command on port M, in a word its own row of the opcode map selects (R66). -/
def EncodedRow.OnM (i : Instr) : Prop :=
  i.isCommand = true ∧ ∃ r cw, rowOf i = some r ∧ encode i = .m cw ∧ r.hits cw = true

/-- The encoder puts an event class on port I, in a vector whose predicates are these (R66). -/
def EncodedRow.OnI (i : Instr) (rxFull txReady : Bool) : Prop :=
  i.isCommand = false ∧ ∃ ev, encode i = .i ev ∧ evRxFull ev = rxFull ∧ evTxReady ev = txReady

/-- The word of an instruction is one its own row of the opcode table selects. -/
def EncodedRow.Statement : Instr → Prop
  | .irqNone => EncodedRow.OnI .irqNone false false
  | .irqTx => EncodedRow.OnI .irqTx false true
  | .irqRx d => EncodedRow.OnI (.irqRx d) true false
  | .irqRxTx d => EncodedRow.OnI (.irqRxTx d) true true
  | .txpush d => EncodedRow.OnM (.txpush d)
  | .txw d => EncodedRow.OnM (.txw d)
  | .rxpop => EncodedRow.OnM .rxpop
  | .rxpeek idx => EncodedRow.OnM (.rxpeek idx)
  | .empty ch => EncodedRow.OnM (.empty ch)
  | .full ch => EncodedRow.OnM (.full ch)
  | .len ch => EncodedRow.OnM (.len ch)
  | .flagrd => EncodedRow.OnM .flagrd
  | .flagclr => EncodedRow.OnM .flagclr

/-- A byte in the `arg` field leaves `CW[23:8]` zero. -/
theorem cwPad_byte (op : BitVec 4) (ch : Bool) (d : Byte) :
    cwPad (commandWord op ch (d.setWidth 24)) = 0#16 := by
  rw [cwPad_eq, cwArg_commandWord]
  refine BitVec.eq_of_getLsbD_eq fun i hi => ?_
  simp

theorem EncodedRow.txpush (d : Byte) : EncodedRow.Statement (.txpush d) :=
  ⟨rfl, _, _, rfl, rfl, (rowTxpush_hits _).2 (by simp [cwPad_byte])⟩
theorem EncodedRow.txw (d : Byte) : EncodedRow.Statement (.txw d) :=
  ⟨rfl, _, _, rfl, rfl, (rowTxw_hits _).2 (by simp [cwPad_byte])⟩
theorem EncodedRow.rxpop : EncodedRow.Statement .rxpop :=
  ⟨rfl, _, _, rfl, rfl, (rowRxpop_hits _).2 (by simp)⟩
theorem EncodedRow.rxpeek (idx : Nat) : EncodedRow.Statement (.rxpeek idx) :=
  ⟨rfl, _, _, rfl, rfl, (rowRxpeek_hits _).2 (by simp)⟩
theorem EncodedRow.empty (ch : Channel) : EncodedRow.Statement (.empty ch) :=
  ⟨rfl, _, _, rfl, rfl, (rowEmpty_hits _).2 (by simp)⟩
theorem EncodedRow.full (ch : Channel) : EncodedRow.Statement (.full ch) :=
  ⟨rfl, _, _, rfl, rfl, (rowFull_hits _).2 (by simp)⟩
theorem EncodedRow.len (ch : Channel) : EncodedRow.Statement (.len ch) :=
  ⟨rfl, _, _, rfl, rfl, (rowLen_hits _).2 (by simp)⟩
theorem EncodedRow.flagrd : EncodedRow.Statement .flagrd :=
  ⟨rfl, _, _, rfl, rfl, (rowFlagrd_hits _).2 (by simp)⟩
theorem EncodedRow.flagclr : EncodedRow.Statement .flagclr :=
  ⟨rfl, _, _, rfl, rfl, (rowFlagclr_hits _).2 (by simp)⟩
theorem EncodedRow.irqNone : EncodedRow.Statement .irqNone := ⟨rfl, _, rfl, by simp, by simp⟩
theorem EncodedRow.irqTx : EncodedRow.Statement .irqTx := ⟨rfl, _, rfl, by simp, by simp⟩
theorem EncodedRow.irqRx (d : Byte) : EncodedRow.Statement (.irqRx d) := ⟨rfl, _, rfl, by simp, by simp⟩
theorem EncodedRow.irqRxTx (d : Byte) : EncodedRow.Statement (.irqRxTx d) := ⟨rfl, _, rfl, by simp, by simp⟩

end Sys2Proof.Laws
end

