-- ==== Sys2Proof/Laws/Step.lean ====
section
/-! SUPPORT. What a step can do, said once, and runs of the core. -/

namespace Sys2Proof.Machine

/-- The two states agree on the block: configuration, draw, channels, `FLAG` and `TXIE`. -/
def BlockEq (t s : State) : Prop :=
  t.cfg = s.cfg ∧ t.draw = s.draw ∧ t.rx = s.rx ∧ t.tx = s.tx ∧ t.flag = s.flag ∧ t.txie = s.txie

theorem BlockEq.buf {s t : State} (h : BlockEq t s) (ch : Channel) : t.buf ch = s.buf ch := by
  cases ch; exacts [h.2.2.1, h.2.2.2.1]

theorem BlockEq.inv {s t : State} (h : BlockEq t s) : t.Inv ↔ s.Inv := by
  unfold State.Inv; rw [ringOk_congr h.1 (h.buf _), ringOk_congr h.1 (h.buf _), h.1]

theorem BlockEq.contents {s t : State} (h : BlockEq t s) (ch : Channel) :
    t.contents ch = s.contents ch := contents_congr h.1 h.2.1 (h.buf ch)

theorem deliver_block (item : MainItem) (more : List MainItem) (s : State) : BlockEq (deliver item more s) s := by
  unfold deliver; split <;> exact ⟨rfl, rfl, rfl, rfl, rfl, rfl⟩

theorem react_block (s : State) : BlockEq (reactUart s) s := by
  unfold reactUart; split <;> exact ⟨rfl, rfl, rfl, rfl, rfl, rfl⟩

theorem onNext_next {f : State → State} {r : Result} {t : State} (h : onNext f r = .next t) :
    ∃ u, r = .next u ∧ t = f u := by
  cases r with
  | next u => exact ⟨u, rfl, by cases h; rfl⟩
  | fault => cases h
  | refused => cases h

/-- A step that goes on left the block as it was, or performed the instruction `performs` names. -/
theorem step_cases {s t : State} (h : step s = .next t) : s.cfg.valid = true ∧
   ((s.performs = none ∧ BlockEq t s) ∨
    ∃ i u, s.performs = some i ∧ exec i { s with sched := s.sched.tail } = .next u ∧ BlockEq t u) := by
  unfold step stepTurn at h
  split at h
  swap
  · cases h
  rename_i hv
  refine ⟨hv, ?_⟩
  split at h
  · rename_i hs; cases h; exact .inl ⟨by simp [State.performs, hs], rfl, rfl, rfl, rfl, rfl, rfl⟩
  rename_i tn rest hs
  rw [hs, List.tail_cons]
  cases tn with
  | main =>
    simp only [takeTurn, mainTurn] at h
    split at h
    · rename_i hp; cases h; exact .inl ⟨by simp [State.performs, State.presented, hs, hp], rfl, rfl, rfl, rfl, rfl, rfl⟩
    rename_i item more hp
    split at h
    · rename_i hi; cases h; exact .inl ⟨by simp_all [State.performs, State.presented], rfl, rfl, rfl, rfl, rfl, rfl⟩
    rename_i cw hi
    obtain ⟨u, hu, rfl⟩ := onNext_next h
    unfold runCommand at hu
    have hpp : s.presented = some cw := by simp_all [State.presented]
    split at hu
    · rename_i i hd
      exact .inr ⟨i, u, by simp [State.performs, hs, hpp, hd], hu, deliver_block _ _ _⟩
    · rename_i w hd
      cases hu
      refine .inl ⟨by simp [State.performs, hs, hpp, hd], ?_⟩
      have := deliver_block item more (answerIllegal { s with sched := rest })
      exact this
  | event ev =>
    obtain ⟨u, hu, rfl⟩ := onNext_next h
    exact .inr ⟨_, u, by simp [State.performs, hs], hu, react_block _⟩
  | fire =>
    simp only [takeTurn, fireTurn] at h
    split at h
    · rename_i hf
      obtain ⟨u, hu, rfl⟩ := onNext_next h
      exact .inr ⟨_, u, by simp [State.performs, hs]; exact hf, hu, react_block _⟩
    · rename_i hf
      cases h; exact .inl ⟨by simpa [State.performs, hs] using hf, rfl, rfl, rfl, rfl, rfl, rfl⟩
  | arrive b => cases h; exact .inl ⟨by simp [State.performs, hs], rfl, rfl, rfl, rfl, rfl, rfl⟩
  | txdone => cases h; exact .inl ⟨by simp [State.performs, hs], rfl, rfl, rfl, rfl, rfl, rfl⟩

/-! ## Runs -/

/-- One step of a run. -/
theorem core_run_next (M : Host.Core) (n : Nat) (s t : M.State) (h : M.step s = .next t) :
    M.run (n+1) s = M.run n t := by
  rw [Host.Core.run, h]

/-- A run that went on took its first step. -/
theorem core_run_inv (M : Host.Core) (n : Nat) (s t : M.State) (h : M.run (n+1) s = .next t) :
    ∃ u, M.step s = .next u ∧ M.run n u = .next t := by
  rw [Host.Core.run] at h
  split at h
  · exact ⟨_, ‹_›, h⟩
  · cases h
  · cases h

theorem run_next {n : Nat} {s t : State} (h : step s = .next t) :
    Host.Core.run Sys2Proof.core (n+1) s = Host.Core.run Sys2Proof.core n t :=
  core_run_next Sys2Proof.core n s t h

theorem run_inv {n : Nat} {s t : State} (h : Host.Core.run Sys2Proof.core (n+1) s = .next t) :
    ∃ u, step s = .next u ∧ Host.Core.run Sys2Proof.core n u = .next t :=
  core_run_inv Sys2Proof.core n s t h

end Sys2Proof.Machine
end

