-- ==== Sys2Proof/Tests/Slice0.lean ====
section
/-! SUPPORT. Tests, their expected results from 95_test_vectors.md (each names its vector), and for every
obligation with hypotheses a state and operands that meet them. -/

namespace Sys2Proof.Tests

open Sys2Proof Sys2Proof.Machine

/-! ## Well-formedness -/

theorem test_wellFormed_refuses_wide_index : (Instr.rxpeek (2 ^ 24)).wellFormed = false := by decide
theorem test_wellFormed_admits_largest_index : (Instr.rxpeek (2 ^ 24 - 1)).wellFormed = true := by decide

/-! ## Decoding: the words of 2.5, by field as R61 and R63 lay them out -/

/-- `op`, `ch`, `rsv`, `CW[23:8]`, `data`. -/
theorem test_decode_txpush :
    decodeCommand (0b0001#4 ++ 0b1#1 ++ 0b000#3 ++ 0x0000#16 ++ 0x48#8) = .instr (.txpush 0x48#8) := by
  decide
theorem test_decode_txw : decodeCommand 0x280000FF#32 = .instr (.txw 0xFF#8) := by decide
theorem test_decode_rxpop : decodeCommand 0x30000000#32 = .instr .rxpop := by decide
theorem test_decode_rxpeek :
    [0x40000000#32, 0x40000003#32, 0x40FFFFFF#32].map decodeCommand =
      [.instr (.rxpeek 0), .instr (.rxpeek 3), .instr (.rxpeek 16777215)] := by decide
theorem test_decode_empty :
    [0x50000000#32, 0x58000000#32].map decodeCommand = [.instr (.empty .rx), .instr (.empty .tx)] := by
  decide
theorem test_decode_full :
    [0x60000000#32, 0x68000000#32].map decodeCommand = [.instr (.full .rx), .instr (.full .tx)] := by
  decide
theorem test_decode_len :
    [0x70000000#32, 0x78000000#32].map decodeCommand = [.instr (.len .rx), .instr (.len .tx)] := by
  decide
theorem test_decode_flagrd : decodeCommand 0x80000000#32 = .instr .flagrd := by decide
theorem test_decode_flagclr : decodeCommand 0x90000000#32 = .instr .flagclr := by decide
/-- IQ-2 and TX-8: the ignored bits are any value. -/
theorem test_decode_irqNone_irqTx :
    [0x000#10, 0x0A5#10, 0x100#10, 0x1FF#10].map decodeEvent = [.irqNone, .irqNone, .irqTx, .irqTx] := by
  decide
/-- `rx_full`, `tx_ready`, `rx_data`. -/
theorem test_decode_irqRx : decodeEvent (0b1#1 ++ 0b0#1 ++ 0x41#8) = .irqRx 0x41#8 := by decide
theorem test_decode_irqRxTx : decodeEvent 0x305#10 = .irqRxTx 0x05#8 := by decide

theorem test_illegal_a :
    [0x00000000#32, 0xFFFFFFFF#32, 0xA0000000#32, 0xF0000000#32, 0x08000000#32].map decodeCommand =
      List.replicate 5 (.illegal .opUnassigned) := by decide
theorem test_illegal_b :
    [0x19000048#32, 0x34000000#32, 0x41000000#32, 0x5C000000#32].map decodeCommand =
      List.replicate 4 (.illegal .reservedBits) := by decide
theorem test_illegal_c :
    [0x10000048#32, 0x20000048#32, 0x18000148#32, 0x28800000#32].map decodeCommand =
      List.replicate 4 (.illegal .pushForm) := by decide
theorem test_illegal_d :
    [0x38000000#32, 0x48000000#32, 0x30000001#32].map decodeCommand =
      List.replicate 3 (.illegal .popPeekForm) := by decide
theorem test_illegal_e :
    [0x50000001#32, 0x68000100#32, 0x70800000#32].map decodeCommand =
      List.replicate 3 (.illegal .statusForm) := by decide
theorem test_illegal_f :
    [0x88000000#32, 0x98000000#32, 0x80000001#32, 0x90FFFFFF#32].map decodeCommand =
      List.replicate 4 (.illegal .flagForm) := by decide

/-- The host's two readings of a table word: the decoder's, and a step's. -/
theorem test_decodeTableWord :
    decodeTableWord 32 0x280000FF = some (.txw 0xFF#8) ∧ decodeTableWord 16 0x305 = some (.irqRxTx 0x05#8) ∧
      decodeTableWord 32 0x10000048 = none ∧ decodeTableWord 16 0x405 = none := by decide

/-! ## Configuration (2.7) -/

theorem test_cf_valid :
    [⟨4, 2, some 32⟩, ⟨2, 1, some 32⟩, ⟨2, 1, some 2⟩, ⟨16777215, 16777214, some 32⟩,
      ⟨4, 2, none⟩].map Params.valid = List.replicate 5 true := by decide
theorem test_cf_invalid :
    [⟨2, 2, some 32⟩, ⟨2, 4, some 32⟩, ⟨1, 0, some 32⟩, ⟨1, 1, some 32⟩, ⟨16777216, 2, some 32⟩,
      ⟨4, 2, some 2⟩, ⟨2, 1, some 1⟩].map Params.valid = List.replicate 7 false := by decide

/-! ## States in the spec's notation `RX{wc, rc, [...]}` -/

/-- `{wc, rc, [slot0, slot1, ...]}`; a slot left out is `?`. -/
def ring (wc rc : Nat) (slots : List Byte) : RingBuffer := ⟨slots.zipIdx.map fun x => (x.2, x.1), wc, rc⟩

/-- A state of the block with these parameters, channels, `FLAG` and `TXIE`. -/
def block (p : Params) (rx tx : RingBuffer) (flag txie : Bool) : State :=
  { State.resetFor p 0 with rx := rx, tx := tx, flag := flag, txie := txie }

/-- The configuration (4, 2, 32). -/
def p42 : Params := ⟨4, 2, some 32⟩
/-- The configuration (2, 1, 2), with cursor bound 3. -/
def p21 : Params := ⟨2, 1, some 2⟩

/-- The outcome is a next state of which `f` holds. -/
def after (r : Result) (f : State → Bool) : Bool :=
  match r with
  | .next s => f s
  | .fault _ => false
  | .refused _ => false

/-- The outcome is the fault `CursorOverflow`. -/
def overflows (r : Result) : Bool :=
  match r with
  | .next _ => false
  | .fault .cursorOverflow => true
  | .refused _ => false

def txEmpty : RingBuffer := ring 0 0 []
def rxEmpty : RingBuffer := ring 0 0 []
/-- TX-3: a full `TX`. -/
def sTxFull : State := block p42 rxEmpty (ring 2 0 [0x48, 0x69]) false true
/-- TX-9: a `TX` that ran empty. -/
def sTxRanEmpty : State := block p42 rxEmpty (ring 2 2 [0x48, 0x69]) false false
/-- RB-14: a wrapped `RX`. -/
def sWrapped : State := block p42 (ring 6 3 [0x42, 0x41, 0x5A, 0x41]) txEmpty true false
/-- IQ-7. -/
def sIq7 : State := block p42 (ring 4 0 [1, 2, 3, 4]) (ring 1 0 [0x7E]) false true
/-- RB-19, RX-13: both write cursors at the bound 3, `TX` and `RX` full. -/
def sBoundFull : State := block p21 (ring 3 1 [0x11, 0x22]) (ring 3 2 [0x33]) true true
/-- RB-18: `TX.wc` at the bound, `TX` empty. -/
def sBoundTx : State := block p21 rxEmpty (ring 3 3 [0x33]) false false
/-- Nothing happened yet. -/
def sReset : State := block p42 rxEmpty txEmpty false false

/-! ## One step each -/

/-- TX-9: slot `2 mod 2`, the other byte kept, `TXIE` set again. -/
theorem test_txpush_wraps : after (exec (.txpush 0x00) sTxRanEmpty) (fun t =>
    t.tx = ring 3 2 [0x00, 0x69] && t.txie && t.rw = some 0x00000000#32) = true := by decide
/-- TX-14: full is tested before the bound. -/
theorem test_txpush_full_before_bound :
    after (exec (.txpush 0x01) sBoundFull) (fun t =>
      t = { sBoundFull with rw := some 0x10000000#32 }) = true := by decide
/-- TX-2. -/
theorem test_txw_enqueues :
    after (exec (.txw 0x69) (block p42 rxEmpty (ring 1 0 [0x48]) false true)) (fun t =>
      t.tx = ring 2 0 [0x48, 0x69] && t.rw = some 0x00000000#32) = true := by decide
/-- TX-4: held, with no `RW`. -/
theorem test_txw_held : after (exec (.txw 0x21) sTxFull) (fun t => t = sTxFull) = true := by decide
/-- RX-4: the pop reads slot `RX.rc mod C` and leaves `FLAG`. -/
theorem test_rxpop_oldest :
    after (exec .rxpop (block ⟨2, 1, some 32⟩ (ring 3 1 [0x43, 0x42]) txEmpty true false)) (fun t =>
      t.rx = ring 3 2 [0x43, 0x42] && t.flag && t.rw = some 0x00000042#32) = true := by decide
/-- RX-10. -/
theorem test_rxpop_no_value : after (exec .rxpop sReset) (fun t =>
    t = { sReset with rw := some 0x20000000#32 }) = true := by decide
/-- RB-14: index 1 is slot 0. -/
theorem test_rxpeek_wraps : after (exec (.rxpeek 1) sWrapped) (fun t =>
    t = { sWrapped with rw := some 0x00000042#32 }) = true := by decide
/-- RB-14, RX-14: at the length, and at the largest index. -/
theorem test_rxpeek_no_value :
    ([3, 16777215].map fun i => after (exec (.rxpeek i) sWrapped) fun t =>
      t = { sWrapped with rw := some 0x20000000#32 }) = [true, true] := by decide
/-- P1 step 11 (the correction C1): one byte left, not empty. -/
theorem test_empty_not :
    after (exec (.empty .rx) (block p42 (ring 5 4 [5, 2, 3, 4]) txEmpty true false)) (fun t =>
      t.rw = some 0x00000000#32) = true := by decide
/-- ST-1. -/
theorem test_empty_tx : after (exec (.empty .tx) sReset) (fun t => t.rw = some 0x00000001#32) = true := by
  decide
/-- RB-13: full although `6 mod 4 = 2 mod 4`. -/
theorem test_full_rx :
    after (exec (.full .rx) (block p42 (ring 6 2 [0, 0, 0, 0]) txEmpty true false)) (fun t =>
      t.rw = some 0x00000001#32) = true := by decide
/-- ST-6: the channel bit selects the instance. -/
theorem test_full_selects :
    ([Channel.tx, .rx].map fun ch => after (exec (.full ch) sTxFull) fun t =>
      t.rw = some (if ch = .tx then 1#32 else 0#32)) = [true, true] := by decide
/-- ST-5. -/
theorem test_len_rx :
    after (exec (.len .rx) (block p42 (ring 5 2 [0, 0, 0, 0]) txEmpty true false)) (fun t =>
      t.rw = some 0x00000003#32) = true := by decide
/-- ST-8: the largest length; bits 27:24 stay 0. -/
theorem test_len_largest :
    after (exec (.len .rx) (block ⟨16777215, 1, some 32⟩ ⟨[], 16777215, 0⟩ txEmpty true false)) (fun t =>
      t.rw = some 0x00FFFFFF#32) = true := by decide
/-- RX-7: set although `RX` is empty. -/
theorem test_flagrd_set :
    after (exec .flagrd (block p42 (ring 3 3 [0, 0, 0]) txEmpty true false)) (fun t =>
      t.rw = some 0x00000001#32 && t.flag) = true := by decide
/-- RX-10. -/
theorem test_flagrd_clear : after (exec .flagrd sReset) (fun t => t.rw = some 0x00000000#32) = true := by
  decide
/-- RX-8, HZ-1: `FLAGCLR` looks at `FLAG` alone, bytes waiting or not. -/
theorem test_flagclr_set : after (exec .flagclr sWrapped) (fun t =>
    t = { sWrapped with flag := false, rw := some 0x00000000#32 }) = true := by decide
/-- RX-9. -/
theorem test_flagclr_clear : after (exec .flagclr sReset) (fun t =>
    t = { sReset with rw := some 0x00000000#32 }) = true := by decide
/-- IQ-2. -/
theorem test_irqNone : after (exec .irqNone sTxFull) (fun t =>
    t = { sTxFull with out := some 0x000#10 }) = true := by decide
/-- IQ-8: a written zero byte; the last one, so `TXIE` is cleared. -/
theorem test_irqTx_last :
    after (exec .irqTx (block p42 rxEmpty (ring 1 0 [0x00]) false true)) (fun t =>
      t.tx = ring 1 1 [0x00] && !t.txie && t.out = some 0x100#10) = true := by decide
/-- TX-5: not the last one, so `TXIE` stays. -/
theorem test_irqTx_more : after (exec .irqTx sTxFull) (fun t =>
    t.tx = ring 2 1 [0x48, 0x69] && t.txie && t.out = some 0x148#10) = true := by decide
/-- RX-3: evicts the oldest byte, in the slot the new one takes. -/
theorem test_irqRx_evicts :
    after (exec (.irqRx 0x43) (block ⟨2, 1, some 32⟩ (ring 2 0 [0x41, 0x42]) txEmpty false false)) (fun t =>
      t.rx = ring 3 1 [0x43, 0x42] && t.flag && t.out = some 0x200#10) = true := by decide
/-- RX-13, RB-20: the bound is tested before the eviction. -/
theorem test_irqRx_bound : overflows (exec (.irqRx 0x43) sBoundFull) = true := by decide
/-- IQ-7: eviction, last byte sent and disable, in one invocation. -/
theorem test_irqRxTx_both : after (exec (.irqRxTx 0x05) sIq7) (fun t =>
    t = { block p42 (ring 5 1 [5, 2, 3, 4]) (ring 1 1 [0x7E]) true false with out := some 0x37E#10 }) = true := by
  decide
/-- IQ-6: the TX branch takes its empty arm. -/
theorem test_irqRxTx_empty : after (exec (.irqRxTx 0x41) sReset) (fun t =>
    t = { block p42 (ring 1 0 [0x41]) txEmpty true false with out := some 0x200#10 }) = true := by decide

/-- DE-1: a malformed `TXW` is answered at once, `TX` full or not. -/
theorem test_malformed_txw_not_held : after (runCommand 0x28000148#32 sTxFull) (fun t =>
    t = { sTxFull with rw := some 0x30000000#32 }) = true := by decide
/-- TX-13, RB-18. -/
theorem test_push_bound : overflows (exec (.txpush 0x01) sBoundTx) = true := by decide
/-- withFetchWord: the very next step runs the word, on either port. -/
theorem test_withFetchWord :
    after (step (State.reset.withFetchWord 32 0x280000FF)) (fun t =>
      t.tx = ring 1 0 [0xFF] && t.rw = some 0x00000000#32) &&
    after (step (State.reset.withFetchWord 16 0x241)) (fun t =>
      t.rx = ring 1 0 [0x41] && t.out = some 0x200#10) = true := by decide

/-! ## Scripts, MAIN and the reference UART -/

/-- R70: the textual forms. -/
theorem test_assemble :
    ["TXPUSH 'H'", "TXW 255", "RXPOP", "RXPEEK 0x3", "EMPTY TX", "LEN RX", "FLAGCLR", "IRQ NONE",
      "IRQ RX(0x41)", "IRQ RX(5)+TX", "TXW 256", "RXPOP 1", "RXPOP ", "LEN"].map (fun l => assemble l.toList) =
      [some (.txpush 0x48#8), some (.txw 0xFF#8), some .rxpop, some (.rxpeek 3), some (.empty .tx),
        some (.len .rx), some .flagclr, some .irqNone, some (.irqRx 0x41#8), some (.irqRxTx 0x05#8),
        none, none, none, none] := by decide
/-- R70: only `<byte>` has a quoted form; an index ends at 16777215. -/
theorem test_assemble_index :
    ["RXPEEK 16777215", "RXPEEK 16777216", "RXPEEK 'A'"].map (fun l => assemble l.toList) =
      [some (.rxpeek 16777215), none, none] := by decide
/-- R70, P2 steps 4 and 5: lines of a script. -/
theorem test_assembleLine :
    ["M: TXW '!' (held)", "M: LEN RX -> 2", "M: RXPOP", "I: IRQ TX -> 0x148", "I: IRQ RX(0x41)+TX",
      "M: RXPOP (held)", "M: IRQ TX", "I: RXPOP"].map (fun l => assembleLine l.toList) =
      [some (.commandHeld 0x28000021#32), some (.command 0x70000000#32 (some 2#32)),
        some (.command 0x30000000#32 none), some (.event 0x100#10 (some 0x148#10)),
        some (.event 0x341#10 none), none, none, none] := by decide
/-- P2 steps 4 to 6: a held command and its accepted line are one command of MAIN; one that does not
appear again is presented all the same. -/
theorem test_scriptItems :
    [[ScriptLine.commandHeld 0x28000021#32, .event 0x100#10 none, .command 0x28000021#32 none],
      [.commandHeld 0x28000021#32], [.commandHeld 0x28000021#32, .command 0x28000022#32 none]].map scriptItems =
      [[.word 0x28000021#32], [.word 0x28000021#32], [.word 0x28000021#32, .word 0x28000022#32]] := by decide
/-- P2 step 4 as a script's last line, on a full `TX`; on one with room the line is not what happens. -/
theorem test_held_line :
    [sTxFull, sTxRanEmpty].map (fun s =>
      checkScript [.commandHeld 0x28000021#32] (loadScript [.commandHeld 0x28000021#32] s)) =
      [true, false] := by decide
/-- P2 step 4: MAIN keeps presenting a held word. -/
theorem test_main_keeps_presenting :
    after (step { sTxFull with sched := [.main], main := ⟨[.word 0x28000021#32], [], []⟩ }) (fun t =>
      t.main.prog = [.word 0x28000021#32] && t.main.heard = []) = true := by decide
/-- P2 step 5: the reference environment fires, and the byte goes on the line. -/
theorem test_fire_puts_on_line : after (step { sTxFull with sched := [.fire] }) (fun t =>
    t.out = some 0x148#10 && t.uart = ⟨none, true, [0x48]⟩) = true := by decide
/-- P2 step 11: with `TXIE = 0` and nothing received the environment has no invocation. -/
theorem test_fire_disabled : after (step { sTxRanEmpty with sched := [.fire] }) (fun t =>
    t = sTxRanEmpty) = true := by decide
/-- R71: `CONSUME` waits for the flag, then drains, then clears it. -/
theorem test_consume_expands :
    MainItem.after 0x00000001#32 .consume = [.drain, .word 0x90000000#32] ∧
      MainItem.after 0x00000000#32 .consume = [.consume] := by decide
/-- P4: the emission of its `HIST`. -/
theorem test_histogram : histogram [0x41, 0x42, 0x41] = [(0x41#8, 2), (0x42#8, 1)] := by decide

/-! ## Witnesses: for each obligation, a state and operands that meet its hypotheses -/

theorem notBound {s : State} {ch : Channel} (h : wcAtBound ch s = false) : ¬ s.wcBound ch := by
  intro hb
  rw [State.wcBound, ← wcAtBound_iff] at hb
  simp [h] at hb
theorem bound {s : State} {ch : Channel} (h : wcAtBound ch s = true) : s.wcBound ch :=
  (wcAtBound_iff ch s).1 h

theorem witness_reset : p42.valid = true := by decide
theorem witness_InvalidConfigurationIsRefused :
    Params.valid ⟨2, 2, some 32⟩ = false ∧ (block ⟨2, 2, some 32⟩ rxEmpty txEmpty false false).cfg.valid = false := by
  decide
/-- The state of IQ-7 with an invocation to come meets every invariant. -/
theorem witness_invariants : ∃ s t : State, s.Inv ∧ s.InvTxie ∧ s.InvWritten ∧ step s = .next t :=
  ⟨{ sIq7 with sched := [.event 0x305#10] }, _, by decide, by decide, by decide, rfl⟩
theorem witness_inv_boundary : sBoundFull.Inv ∧ sBoundTx.Inv ∧ sWrapped.Inv ∧ sReset.Inv := by decide
theorem witness_DecodeUndoesEncode : (Instr.rxpeek 16777215).wellFormed = true := by decide
theorem witness_legal_and_illegal :
    decodeCommand 0x40FFFFFF#32 = .instr (.rxpeek 16777215) ∧
      decodeCommand 0x28000148#32 = .illegal .pushForm := by decide
theorem witness_runCommand_next :
    ∃ t : State, runCommand 0x28000148#32 sTxFull = .next t ∧ t.rw = some 0x30000000#32 := ⟨_, rfl, by decide⟩
theorem witness_StepPerformsThePresentedCommand :
    ∃ (s : State) (rest : List Turn) (more : List MainItem) (cw : Word) (i : Instr), s.cfg.valid = true ∧ s.sched = .main :: rest ∧ s.main.prog = .hist :: more ∧
      MainItem.hist.present = some cw ∧ decodeCommand cw = .instr i :=
  ⟨{ sWrapped with sched := [.main], main := ⟨[.hist], [], []⟩ }, [], [], 0x70000000#32, .len .rx,
    by decide, rfl, rfl, by decide, by decide⟩
theorem witness_StepPerformsThePresentedCommand_illegal :
    ∃ (s : State) (rest : List Turn) (cw : Word) (more : List MainItem) (why : Illegal), s.cfg.valid = true ∧ s.sched = .main :: rest ∧ s.main.prog = .word cw :: more ∧
      (MainItem.word cw).present = some cw ∧ decodeCommand cw = .illegal why :=
  ⟨{ sTxFull with sched := [.main], main := ⟨[.word 0x28000148#32], [], []⟩ }, [], 0x28000148#32, [],
    .pushForm, by decide, rfl, rfl, rfl, by decide⟩
theorem witness_StepPerformsTheInvocation :
    ∃ (s : State) (rest : List Turn) (ev : EventVec), s.cfg.valid = true ∧ s.sched = .event ev :: rest ∧ ∃ t : State, step s = .next t :=
  ⟨{ sIq7 with sched := [.event 0x305#10] }, [], 0x305#10, by decide, rfl, _, rfl⟩
theorem witness_OnlyAFullTransmitChannelHoldsMain_held :
    ∃ (s : State) (rest : List Turn) (cw : Word) (more : List MainItem), s.cfg.valid = true ∧ s.sched = .main :: rest ∧ s.main.prog = .word cw :: more ∧
      (∃ d, decodeCommand cw = .instr (.txw d)) ∧ s.tx.wc - s.tx.rc = s.cfg.cTx :=
  ⟨{ sTxFull with sched := [.main], main := ⟨[.word 0x28000021#32], [], []⟩ }, [], 0x28000021#32, [],
    by decide, rfl, rfl, ⟨0x21#8, by decide⟩, by decide⟩
theorem witness_OnlyAFullTransmitChannelHoldsMain_answered :
    ∃ (s : State) (rest : List Turn) (cw : Word) (more : List MainItem), s.cfg.valid = true ∧ s.sched = .main :: rest ∧ s.main.prog = .word cw :: more ∧
      ¬ ((∃ d, decodeCommand cw = .instr (.txw d)) ∧ s.tx.wc - s.tx.rc = s.cfg.cTx) :=
  ⟨{ sTxRanEmpty with sched := [.main], main := ⟨[.word 0x28000021#32], [], []⟩ }, [], 0x28000021#32, [],
    by decide, rfl, rfl, fun h => absurd h.2 (by decide)⟩
theorem witness_EveryStepBelowTheBoundGoesOn :
    sIq7.cfg.valid = true ∧ ¬ sIq7.wcBound .rx ∧ ¬ sIq7.wcBound .tx :=
  ⟨by decide, notBound (by decide), notBound (by decide)⟩

/-- A turn of the reference environment to come. -/
def uartState (u : Uart) (t : Turn) : State := { sTxFull with uart := u, sched := [t] }

/-- Each clause: `arrive` and `txdone`, enabled and not; `fire` on either ground and on none. -/
theorem witness_ReferenceEnvironmentSteps :
    (uartState ⟨none, false, []⟩ (.arrive 0x41)).uart.rxp = none ∧
    (uartState ⟨some 0x40, false, []⟩ (.arrive 0x41)).uart.rxp ≠ none ∧
    (uartState ⟨none, true, []⟩ .txdone).uart.txb = true ∧
    (uartState ⟨none, false, []⟩ .txdone).uart.txb = false ∧
    (uartState ⟨some 0x40, true, []⟩ .fire).uart.rxp ≠ none ∧
    ((uartState ⟨none, false, []⟩ .fire).uart.txb = false ∧ sTxFull.txie = true) ∧
    ¬ ((uartState ⟨none, true, []⟩ .fire).uart.rxp ≠ none ∨
      ((uartState ⟨none, true, []⟩ .fire).uart.txb = false ∧ sTxFull.txie = true)) ∧
    (uartState ⟨none, true, []⟩ .fire).cfg.valid = true := by decide
theorem witness_reactUart : ({ sTxFull with out := some 0x148#10 } : State).out = some 0x148#10 := rfl

theorem witness_push_word : 0x18000048#32 &&& 0xFFFFFF00#32 = 0x18000000#32 ∧
    0x280000FF#32 &&& 0xFFFFFF00#32 = 0x28000000#32 := by decide
/-- The three cases of a push: full, at the bound, neither (also one below the bound). -/
theorem witness_push_cases :
    sTxFull.tx.wc - sTxFull.tx.rc = sTxFull.cfg.cTx ∧
    (sBoundTx.tx.wc - sBoundTx.tx.rc ≠ sBoundTx.cfg.cTx ∧ sBoundTx.wcBound .tx) ∧
    (sReset.tx.wc - sReset.tx.rc ≠ sReset.cfg.cTx ∧ ¬ sReset.wcBound .tx) ∧
    (let s := block p21 rxEmpty (ring 2 2 [0x33]) false false
     s.tx.wc - s.tx.rc ≠ s.cfg.cTx ∧ ¬ s.wcBound .tx) :=
  ⟨by decide, ⟨by decide, bound (by decide)⟩, ⟨by decide, notBound (by decide)⟩,
    ⟨by decide, notBound (by decide)⟩⟩
theorem witness_rxpop : sReset.rx.wc = sReset.rx.rc ∧ sWrapped.rx.wc ≠ sWrapped.rx.rc := by decide
/-- `RXPEEK` at the last occupied index and just past it. -/
theorem witness_rxpeek : 2 < sWrapped.rx.wc - sWrapped.rx.rc ∧ sWrapped.rx.wc - sWrapped.rx.rc ≤ 3 ∧
    0x40FFFFFF#32 &&& 0xFF000000#32 = 0x40000000#32 ∧ sWrapped.rx.rc ≤ sWrapped.rx.wc := by decide
theorem witness_rxpeek_runs : ∃ t u : State, exec (.rxpeek 0) sWrapped = .next t ∧ exec .rxpop sWrapped = .next u :=
  ⟨_, _, rfl, rfl⟩
theorem witness_IrqNoneDoesNothing : firingCondition 0x100#10 true = true ∧ firingCondition 0x200#10 false = true := by
  decide
theorem witness_irqTx : 0x1FF#10 &&& 0x300#10 = 0x100#10 ∧ sReset.tx.wc = sReset.tx.rc ∧
    sTxFull.tx.wc ≠ sTxFull.tx.rc ∧ sIq7.tx.wc = sIq7.tx.rc + 1 := by decide
theorem witness_irqRx : 0x241#10 &&& 0x300#10 = 0x200#10 ∧ sBoundFull.wcBound .rx ∧ ¬ sIq7.wcBound .rx :=
  ⟨by decide, bound (by decide), notBound (by decide)⟩
/-- At the bound with `rx_full`, and at the bound without it. -/
theorem witness_InvocationRunsTheBranchesItsPredicatesGate :
    ((0x305#10).getLsbD 9 = true ∧ sBoundFull.wcBound .rx) ∧
      ¬ ((0x1FF#10).getLsbD 9 = true ∧ sBoundFull.wcBound .rx) :=
  ⟨⟨by decide, bound (by decide)⟩, fun h => absurd h.1 (by decide)⟩
theorem witness_BranchOrderIsNotObservable :
    ∃ t1 t2 u1 u2 : State, exec (.irqRx 5) sIq7 = .next t1 ∧ exec .irqTx t1 = .next t2 ∧
      exec .irqTx sIq7 = .next u1 ∧ exec (.irqRx 5) u1 = .next u2 :=
  ⟨_, _, _, _, rfl, rfl, rfl, rfl⟩
/-- A byte beside the stored one, and a command that stores none. -/
theorem witness_OnlyTheStoredSlotChanges :
    (∃ t : State, exec (.irqRx 5) sIq7 = .next t ∧ storesTo (.irqRx 5) sIq7 ≠ some (.rx, 1)) ∧
    (∃ t : State, exec .rxpop sIq7 = .next t ∧ storesTo .rxpop sIq7 ≠ some (.rx, 0)) :=
  ⟨⟨_, rfl, by decide⟩, ⟨_, rfl, by decide⟩⟩
theorem witness_EachContextWritesOnlyItsOwnFields :
    (∃ t : State, exec .flagclr sWrapped = .next t ∧ Instr.isCommand .flagclr = true) ∧
    (∃ t : State, exec (.irqRxTx 5) sIq7 = .next t ∧ Instr.isCommand (.irqRxTx 5) = false) :=
  ⟨⟨_, rfl, rfl⟩, ⟨_, rfl, rfl⟩⟩
theorem witness_StatusCommandsAreIdempotent :
    ∃ t : State, exec (.len .rx) sWrapped = .next t ∧ Instr.isStatus (.len .rx) = true ∧ sWrapped.cfg = t.cfg ∧
      (∀ i ∈ [Instr.len .rx, .full .tx], i.isStatus = true) ∧
      ∀ ch, (sWrapped.buf ch).wc = (t.buf ch).wc ∧ (sWrapped.buf ch).rc = (t.buf ch).rc :=
  ⟨_, rfl, rfl, rfl, by decide, fun ch => by cases ch <;> decide⟩
theorem witness_output_vector : ∃ t : State, exec (decodeEvent 0x305#10) sIq7 = .next t ∧ t.out = some 0x37E#10 :=
  ⟨_, rfl, by decide⟩

/-- Exactly room for the bytes: below the capacity, and up to the bound. -/
theorem witness_TransmitChannelIsFifo :
    let s := block ⟨4, 2, some 3⟩ rxEmpty (ring 5 5 [0x11, 0x22]) false false
    s.Inv ∧ (s.tx.wc - s.tx.rc) + [0x41#8, 0x42#8].length ≤ s.cfg.cTx ∧ s.room .tx [0x41#8, 0x42#8].length :=
  ⟨by decide, by decide, fun w h => by cases h; decide⟩
theorem witness_ReceiveChannelIsFifo :
    sWrapped.Inv ∧ (sWrapped.rx.wc - sWrapped.rx.rc) + [0x43#8].length ≤ sWrapped.cfg.cRx ∧
      sWrapped.room .rx [0x43#8].length :=
  ⟨by decide, by decide, fun w h => by cases h; decide⟩
/-- RB-11: more bytes than the capacity, from a never-used channel. -/
theorem witness_ReceiveChannelDropsTheOldest :
    sReset.Inv ∧ sReset.room .rx [0x10#8, 0x11#8, 0x12#8, 0x13#8, 0x14#8].length ∧ sReset.rx.wc = 0 :=
  ⟨by decide, fun w h => by cases h; decide, rfl⟩
/-- One step that sends a byte. -/
theorem witness_NoTransmitByteIsLost :
    ∃ s t : State, s.Inv ∧ Host.Core.run Sys2Proof.core 1 s = .next t ∧ t.uart.line = [0x7E#8] :=
  ⟨{ sIq7 with sched := [.event 0x305#10] }, _, by decide, rfl, by decide⟩
theorem witness_FlagRecordsReceiveSinceLastClear :
    let s1 : State := { sIq7 with sched := [.event 0x205#10] }
    let s2 : State := { sWrapped with sched := [.main], main := ⟨[.word 0x90000000#32], [], []⟩ }
    let s3 : State := { sWrapped with sched := [.event 0x100#10] }
    ((∃ t : State, step s1 = .next t) ∧ s1.performs = some (.irqRx 5)) ∧
    ((∃ t : State, step s2 = .next t) ∧ s2.performs = some .flagclr) ∧
    ((∃ t : State, step s3 = .next t) ∧ s3.performs = some .irqTx) :=
  ⟨⟨⟨_, rfl⟩, by decide⟩, ⟨⟨_, rfl⟩, by decide⟩, ⟨⟨_, rfl⟩, by decide⟩⟩
theorem witness_NewestReceivedByteIsInTheChannel :
    sIq7.Inv ∧ (∃ t : State, exec (.irqRx 5) sIq7 = .next t) ∧ ∃ t : State, exec (.irqRxTx 5) sIq7 = .next t :=
  ⟨by decide, ⟨_, rfl⟩, ⟨_, rfl⟩⟩
theorem witness_PeekAndPopReadTheContentsInOrder :
    sWrapped.Inv ∧ sWrapped.contents .rx = [0x41#8, 0x42#8, 0x41#8] ∧ sReset.Inv ∧ sReset.contents .rx = [] := by
  decide
theorem witness_PopAndEvictingReceptionAreSerial :
    sIq7.Inv ∧ ¬ sIq7.wcBound .rx ∧ sIq7.rx.wc - sIq7.rx.rc = sIq7.cfg.cRx ∧
      sIq7.contents .rx = 1#8 :: [2#8, 3#8, 4#8] :=
  ⟨by decide, notBound (by decide), by decide, by decide⟩
theorem witness_ObservationsSurviveInvocations :
    sIq7.Inv ∧ (∀ e ∈ [Instr.irqRxTx 5, .irqNone], e.isCommand = false) ∧
      (∃ t : State, runAll [.irqRxTx 5, .irqNone] sIq7 = .next t) ∧ sIq7.rx.wc ≠ sIq7.rx.rc ∧
      3 < sIq7.rx.wc - sIq7.rx.rc ∧ sIq7.tx.wc - sIq7.tx.rc ≠ sIq7.cfg.cTx ∧ ¬ sIq7.wcBound .tx :=
  ⟨by decide, by decide, ⟨_, rfl⟩, by decide, by decide, by decide, notBound (by decide)⟩
theorem witness_ObservationsSurviveInvocations_empty_tx :
    sWrapped.Inv ∧ (∃ t : State, runAll [.irqTx] sWrapped = .next t) ∧ sWrapped.tx.wc = sWrapped.tx.rc :=
  ⟨by decide, ⟨_, rfl⟩, by decide⟩
/-- At the bound too, where both fault. -/
theorem witness_TxwIsTxpushWhileNotFull :
    sReset.tx.wc - sReset.tx.rc ≠ sReset.cfg.cTx ∧ sBoundTx.tx.wc - sBoundTx.tx.rc ≠ sBoundTx.cfg.cTx := by
  decide
theorem witness_HeldTxwIsAcceptedAfterOneTransmitEvent :
    let s : State := { sTxFull with sched := [.fire, .main], main := ⟨[.word 0x28000021#32], [], []⟩ }
    s.Inv ∧ s.InvTxie ∧ ¬ s.wcBound .rx ∧ ¬ s.wcBound .tx ∧ s.tx.wc - s.tx.rc = s.cfg.cTx ∧
      s.uart.txb = false ∧ s.sched = .fire :: .main :: [] ∧ s.main.prog = .word 0x28000021#32 :: [] ∧
      decodeCommand 0x28000021#32 = .instr (.txw 0x21) :=
  ⟨by decide, by decide, notBound (by decide), notBound (by decide), by decide, rfl, rfl, rfl, by decide⟩
/-- P4 (three bytes) and an empty `RX`, for `HIST` and for `DRAIN`, with a turn and an item to come after. -/
theorem witness_HIST_and_DRAIN :
    let s (b : State) (i : MainItem) : State :=
      { b with sched := List.replicate (b.rx.wc - b.rx.rc + 1) .main ++ [.event 0x241#10],
               main := ⟨[i, .waitFlag], [], []⟩ }
    ∀ b ∈ [sWrapped, sReset], ∀ i ∈ [MainItem.hist, .drain],
      (s b i).Inv ∧
        (s b i).sched = List.replicate ((s b i).rx.wc - (s b i).rx.rc + 1) .main ++ [.event 0x241#10] ∧
        (s b i).main.prog = i :: [.waitFlag] := by decide
/-- Both policies, filling the channel exactly. -/
theorem witness_RingBufferIsFifo :
    let s := block p42 (ring 2 0 [0x41, 0x42]) txEmpty false false
    let ps : List (Policy × Byte) := [(.rejecting, 0x43#8), (.dropOldest, 0x44#8)]
    s.Inv ∧ (s.contents .rx).length + ps.length ≤ s.cfg.capacity .rx ∧ s.room .rx ps.length ∧
      ∃ t, insertAll .rx ps s = some t ∧ (t.buf .rx).rc = (s.buf .rx).rc ∧ (t.buf .rx).wc = 4 :=
  ⟨by decide, by decide, fun w h => by cases h; decide, _, rfl, by decide, by decide⟩

end Sys2Proof.Tests
end

section
/-! Construction of the block, and the state it leaves (R30, R160). -/

namespace Sys2Proof.Machine

theorem construct_of_valid {p : Params} (h : p.valid = true) (draw : Nat) :
    construct p draw = .next (State.resetFor p draw) := if_pos h

/-- Reset lists no slot of either array: nothing has been written. -/
@[simp] theorem resetFor_storage (p : Params) (draw : Nat) (ch : Channel) :
    ((State.resetFor p draw).buf ch).storage = [] := by cases ch <;> rfl

/-- A slot that is not listed holds its unspecified reset byte. -/
theorem byteAt_of_read_eq_none {s : State} {ch : Channel} {a : Nat}
    (h : (s.buf ch).storage.read a = none) : s.byteAt ch a = Config.resetByte s.draw ch a := by
  simp [State.byteAt, h]

@[simp] theorem byteAt_resetFor (p : Params) (draw : Nat) (ch : Channel) (a : Nat) :
    (State.resetFor p draw).byteAt ch a = Config.resetByte draw ch a :=
  byteAt_of_read_eq_none (by simp [Memory.read])

/-- Settles O1: construction answers the reset state, whose cursors and flags are its literal fields and
whose bytes, none being listed, are those of the draw. -/
theorem resetLeavesTheSpecifiedState : Obligations.ResetLeavesTheSpecifiedState :=
  fun p draw hvalid => ⟨State.resetFor p draw, construct_of_valid hvalid draw,
    rfl, rfl, rfl, rfl, rfl, rfl, rfl, byteAt_resetFor p draw⟩

end Sys2Proof.Machine
end

section
/-! The opcode map as a table of rows and the instructions they select, and the decoder of each port read
from it (R66, R68). -/

namespace Sys2Proof

/-! ## Port M -/

/-- The rows of R66, each with the command it selects, the operands being the word's fields (R65). -/
def opTable : List (OpRow × (Word → Instr)) :=
  [(rowTxpush, fun cw => .txpush (cwData cw)), (rowTxw, fun cw => .txw (cwData cw)),
   (rowRxpop, fun _ => .rxpop), (rowRxpeek, fun cw => .rxpeek (cwIdx cw)),
   (rowEmpty, fun cw => .empty (cwChannel cw)), (rowFull, fun cw => .full (cwChannel cw)),
   (rowLen, fun cw => .len (cwChannel cw)), (rowFlagrd, fun _ => .flagrd),
   (rowFlagclr, fun _ => .flagclr)]

theorem map_fst_opTable : opTable.map Prod.fst = opRows := rfl

theorem fst_mem_opRows {e : OpRow × (Word → Instr)} (he : e ∈ opTable) : e.1 ∈ opRows :=
  map_fst_opTable ▸ List.mem_map_of_mem he

/-- Every entry selects one of the nine commands. -/
theorem isCommand_of_mem_opTable {e : OpRow × (Word → Instr)} (he : e ∈ opTable) (cw : Word) :
    (e.2 cw).isCommand = true := by
  simp only [opTable, List.mem_cons, List.not_mem_nil, or_false] at he
  rcases he with rfl | rfl | rfl | rfl | rfl | rfl | rfl | rfl | rfl <;> rfl

/-- Two entries that hit one word are one entry. -/
theorem opTable_hits_unique {e e' : OpRow × (Word → Instr)} (he : e ∈ opTable) (he' : e' ∈ opTable)
    {cw : Word} (hit : e.1.hits cw = true) (hit' : e'.1.hits cw = true) : e = e' := by
  have hnodup : (opTable.map Prod.fst).Nodup := by rw [map_fst_opTable]; decide
  exact List.inj_on_of_nodup_map hnodup he he'
    (opRows_disjoint _ (fst_mem_opRows he) _ (fst_mem_opRows he') cw hit hit')

/-- A word hits an entry and decodes to what that entry selects, or it hits no row and is illegal. -/
theorem decodeCommand_opTable (cw : Word) :
    (∃ e ∈ opTable, e.1.hits cw = true ∧ decodeCommand cw = .instr (e.2 cw)) ∨
    ((∀ r ∈ opRows, r.hits cw = false) ∧ decodeCommand cw = .illegal (illegalCase cw)) := by
  have h := decodeCommand_cases cw
  simp only [opTable, List.exists_mem_cons_iff, List.not_mem_nil, false_and, exists_false, or_false]
  simpa only [or_assoc] using h

/-- R66: a word decodes to an instruction iff it hits the row that selects it. -/
theorem decodeCommand_eq_instr_iff (cw : Word) (i : Instr) :
    decodeCommand cw = .instr i ↔ ∃ e ∈ opTable, e.1.hits cw = true ∧ i = e.2 cw := by
  rcases decodeCommand_opTable cw with ⟨e, he, hit, hd⟩ | ⟨hnone, hd⟩ <;> rw [hd]
  · constructor
    · intro h
      exact ⟨e, he, hit, by cases h; rfl⟩
    · rintro ⟨e', he', hit', rfl⟩
      rw [opTable_hits_unique he he' hit hit']
  · constructor
    · intro h
      cases h
    · rintro ⟨e, he, hit, -⟩
      simp [hnone _ (fst_mem_opRows he)] at hit

/-- R67: a word is illegal iff it hits no row. -/
theorem decodeCommand_illegal_iff (cw : Word) :
    (∃ why, decodeCommand cw = .illegal why) ↔ ∀ r ∈ opRows, r.hits cw = false := by
  rcases decodeCommand_opTable cw with ⟨e, he, hit, hd⟩ | ⟨hnone, hd⟩ <;> rw [hd]
  · constructor
    · rintro ⟨why, h⟩
      cases h
    · intro hnone
      simp [hnone _ (fst_mem_opRows he)] at hit
  · exact ⟨fun _ => hnone, fun _ => ⟨_, rfl⟩⟩

/-- R144: port M carries commands only. -/
theorem isCommand_of_decodeCommand {cw : Word} {i : Instr} (h : decodeCommand cw = .instr i) :
    i.isCommand = true := by
  obtain ⟨e, he, -, rfl⟩ := (decodeCommand_eq_instr_iff cw i).1 h
  exact isCommand_of_mem_opTable he cw

/-! ## Port I -/

/-- The mask of R66 for port I keeps the two predicates and clears `rx_data`. -/
theorem and_eventMask (ev : EventVec) :
    ev &&& 0x300#10 = eventVector (evRxFull ev) (evTxReady ev) 0#8 := by
  refine BitVec.eq_of_getLsbD_eq fun i hi => ?_
  rw [BitVec.getLsbD_and, getLsbD_eventVector, evRxFull, evTxReady]
  interval_cases i <;> simp

/-- R66: the four event classes by their masked vectors. -/
theorem decodeEvent_eq_iff (ev : EventVec) (d : Byte) :
    (decodeEvent ev = .irqNone ↔ ev &&& 0x300#10 = 0x000#10) ∧
    (decodeEvent ev = .irqTx ↔ ev &&& 0x300#10 = 0x100#10) ∧
    (decodeEvent ev = .irqRx d ↔ ev &&& 0x300#10 = 0x200#10 ∧ d = evRxData ev) ∧
    (decodeEvent ev = .irqRxTx d ↔ ev &&& 0x300#10 = 0x300#10 ∧ d = evRxData ev) := by
  rw [and_eventMask, decodeEvent]
  cases evRxFull ev <;> cases evTxReady ev <;> simp [eventVector, eq_comm]

/-- Settles O13: each command's clause is its entry of the table, each event class's the masked vector. -/
theorem opcodeMapSelectsByMaskAndMatch : Obligations.OpcodeMapSelectsByMaskAndMatch := by
  refine ⟨?_, ?_, ?_, ?_, ?_, ?_, ?_, ?_, ?_, fun ev => (decodeEvent_eq_iff ev 0).1,
    fun ev => (decodeEvent_eq_iff ev 0).2.1, fun ev d => (decodeEvent_eq_iff ev d).2.2.1,
    fun ev d => (decodeEvent_eq_iff ev d).2.2.2⟩ <;> intros <;>
  simp [decodeCommand_eq_instr_iff, opTable, hits_iff, rowTxpush, rowTxw, rowRxpop, rowRxpeek, rowEmpty,
    rowFull, rowLen, rowFlagrd, rowFlagclr, cwData, cwIdx, cwArg, cwChannel, cwCh]

end Sys2Proof
end

section
/-! The illegal words by their fields, and what a command word leaves unchanged (R67). -/

namespace Sys2Proof

/-- The operations in the groups of R67: unassigned, or one of the nine. -/
theorem op_cases : ∀ op : BitVec 4, (op = 0x0#4 ∨ 0xA#4 ≤ op) ∨ op = 0x1#4 ∨ op = 0x2#4 ∨ op = 0x3#4 ∨
    op = 0x4#4 ∨ op = 0x5#4 ∨ op = 0x6#4 ∨ op = 0x7#4 ∨ op = 0x8#4 ∨ op = 0x9#4 := by decide

/-- An unassigned operation is none of the nine. -/
theorem op_unassigned : ∀ op : BitVec 4, op = 0x0#4 ∨ 0xA#4 ≤ op → op ≠ 0x1#4 ∧ op ≠ 0x2#4 ∧ op ≠ 0x3#4 ∧
    op ≠ 0x4#4 ∧ op ≠ 0x5#4 ∧ op ≠ 0x6#4 ∧ op ≠ 0x7#4 ∧ op ≠ 0x8#4 ∧ op ≠ 0x9#4 := by decide

/-- The cases (a) to (f) of R67 are what excludes all nine rows, operation by operation. -/
theorem no_row_hits_iff (cw : Word) : (∀ r ∈ opRows, r.hits cw = false) ↔
    ((cwOp cw = 0x0#4 ∨ 0xA#4 ≤ cwOp cw) ∨
     cwRsv cw ≠ 0#3 ∨
     ((cwOp cw = 0x1#4 ∨ cwOp cw = 0x2#4) ∧ (cwCh cw = false ∨ cwPad cw ≠ 0#16)) ∨
     (((cwOp cw = 0x3#4 ∨ cwOp cw = 0x4#4) ∧ cwCh cw = true) ∨
       (cwOp cw = 0x3#4 ∧ cwArg cw ≠ 0#24)) ∨
     ((cwOp cw = 0x5#4 ∨ cwOp cw = 0x6#4 ∨ cwOp cw = 0x7#4) ∧ cwArg cw ≠ 0#24) ∨
     ((cwOp cw = 0x8#4 ∨ cwOp cw = 0x9#4) ∧ (cwCh cw = true ∨ cwArg cw ≠ 0#24))) := by
  simp only [opRows, List.forall_mem_cons, ← Bool.not_eq_true, rowTxpush_hits, rowTxw_hits, rowRxpop_hits,
    rowRxpeek_hits, rowEmpty_hits, rowFull_hits, rowLen_hits, rowFlagrd_hits, rowFlagclr_hits]
  rcases op_cases (cwOp cw) with h | h | h | h | h | h | h | h | h | h
  · simp [h, op_unassigned _ h]
  all_goals simp [h, not_and_or, -not_and, or_assoc, or_comm, or_left_comm]

end Sys2Proof

namespace Sys2Proof.Machine

/-- R67: an illegal word is answered `0x30000000` with nothing else written. -/
theorem runCommand_illegal {cw : Word} {why : Illegal} (h : decodeCommand cw = .illegal why) (s : State) :
    runCommand cw s = .next { s with rw := some 0x30000000#32 } := by
  simp only [runCommand, h, answerIllegal, respond, responseWord_illegal]

/-- A command that goes on leaves the two cursors that only an invocation advances. -/
theorem exec_command_keeps_irq_cursors {i : Instr} (hi : i.isCommand = true) {s t : State}
    (h : exec i s = .next t) : t.rx.wc = s.rx.wc ∧ t.tx.rc = s.tx.rc := by
  rcases exec_command_cases i hi s t h with
    ⟨-, rw, rfl⟩ | ⟨d, -, -, -, rfl⟩ | ⟨-, -, rw, rfl⟩ | ⟨-, rw, rfl⟩
  · exact ⟨rfl, rfl⟩
  · simp [insertByte_eq]
  · simp [advanceRc_eq]
  · exact ⟨rfl, rfl⟩

/-- R67: "no encoding exists by which MAIN could write `RX.wc` or `TX.rc`". -/
theorem runCommand_keeps_irq_cursors {cw : Word} {s t : State} (h : runCommand cw s = .next t) :
    t.rx.wc = s.rx.wc ∧ t.tx.rc = s.tx.rc := by
  cases hd : decodeCommand cw with
  | instr i =>
    rw [runCommand, hd] at h
    exact exec_command_keeps_irq_cursors (isCommand_of_decodeCommand hd) h
  | illegal why =>
    rw [runCommand_illegal hd] at h
    cases h
    exact ⟨rfl, rfl⟩

/-- Settles O14: a word is illegal iff it hits no row, which its fields decide. -/
theorem illegalWordsAreExactlyTheListedOnes : Obligations.IllegalWordsAreExactlyTheListedOnes :=
  ⟨fun cw => (decodeCommand_illegal_iff cw).trans (no_row_hits_iff cw),
   fun _ _ s h => runCommand_illegal h s, fun _ _ _ h => runCommand_keeps_irq_cursors h⟩

end Sys2Proof.Machine
end

section
/-! The output vector of an invocation (R64). -/

namespace Sys2Proof.Machine

/-- The vector an invocation that goes on produces: the read where a byte is given, and the write of the
oldest byte of `TX` where the TX half runs on a channel that is not empty. -/
theorem takeInterrupt_out {rx : Option Byte} {tr : Bool} {s t : State}
    (h : takeInterrupt rx tr s = .next t) :
    t.out = some (outVector rx.isSome
      (if tr = true ∧ s.tx.wc ≠ s.tx.rc then some (s.byteAt .tx (s.tx.rc % s.cfg.cTx)) else none)) := by
  obtain ⟨t', h', ht, -⟩ := takeInterrupt_ok rx tr s (takeInterrupt_next_bound h)
  rw [h] at h'
  cases h'
  exact congrArg State.out ht

/-- Settles O42: the fields of the vector that the event class's invocation produces. -/
theorem everyOutputVectorHasTheOutputFormat : Obligations.EveryOutputVectorHasTheOutputFormat := by
  intro ev s t h
  rw [exec_event] at h
  refine ⟨_, takeInterrupt_out h, ?_⟩
  change _ = evRxFull ev ∧ (_ ↔ evTxReady ev = true ∧ _) ∧ _
  simp only [outVector_fields]
  refine ⟨by cases evRxFull ev <;> rfl, ?_⟩
  by_cases hw : evTxReady ev = true ∧ s.tx.wc ≠ s.tx.rc
  · rw [if_pos hw]
    simp [hw]
  · rw [if_neg hw]
    simp [hw]

end Sys2Proof.Machine
end

section
/-! The producer's side of the transmit channel: one attempt to enqueue a byte (R101). -/

namespace Sys2Proof.Machine

/-! ## `rb_push` by its two tests (R83, R150) -/

theorem rbPush_of_full (ch : Channel) (s : State)
    (hfull : (s.buf ch).wc - (s.buf ch).rc = s.cfg.capacity ch) (b : Byte) :
    rbPush ch b s = .overflow :=
  if_pos ((rbIsFull_iff ch s).2 hfull)

theorem rbPush_of_bound (ch : Channel) (s : State)
    (hroom : (s.buf ch).wc - (s.buf ch).rc ≠ s.cfg.capacity ch) (hbound : s.wcBound ch) (b : Byte) :
    rbPush ch b s = .cursorOverflow := by
  rw [rbPush, if_neg (mt (rbIsFull_iff ch s).1 hroom), if_pos ((wcAtBound_iff ch s).2 hbound)]

theorem rbPush_of_room (ch : Channel) (s : State)
    (hroom : (s.buf ch).wc - (s.buf ch).rc ≠ s.cfg.capacity ch) (hbelow : ¬ s.wcBound ch) (b : Byte) :
    rbPush ch b s = .ok (insertByte ch b s) := by
  rw [rbPush, if_neg (mt (rbIsFull_iff ch s).1 hroom), if_neg (mt (wcAtBound_iff ch s).1 hbelow)]

/-! ## The accepted byte -/

/-- What an accepted `TXPUSH` or `TXW` leaves: the byte inserted, `TXIE` set and `OK` answered, all in
one transition (R101, R102). -/
def acceptTx (d : Byte) (s : State) : State := respond .ok 0#24 (enableTx (insertByte .tx d s))

/-- The fields an accepted byte writes; the new storage is described by `byteAt_acceptTx`. -/
theorem acceptTx_eq (d : Byte) (s : State) :
    acceptTx d s = { s with tx := ⟨(acceptTx d s).tx.storage, s.tx.wc + 1, s.tx.rc⟩, txie := true,
                            rw := some 0x00000000#32 } := rfl

/-- An accepted byte stands at the slot of the write cursor; every other byte is as before. -/
theorem byteAt_acceptTx (d : Byte) (s : State) (ch : Channel) (a : Nat) :
    (acceptTx d s).byteAt ch a = if ch = .tx ∧ a = s.tx.wc % s.cfg.cTx then d else s.byteAt ch a := by
  rw [acceptTx, byteAt_respond, byteAt_enableTx, byteAt_insertByte]
  rfl

/-! ## `TXPUSH` -/

/-- The row of `TXPUSH` in the opcode map (R66). -/
theorem decodeCommand_of_txpushRow {cw : Word} (h : cw &&& 0xFFFFFF00#32 = 0x18000000#32) :
    decodeCommand cw = .instr (.txpush (cw.extractLsb' 0 8)) :=
  (decodeCommand_eq_instr_iff cw _).2
    ⟨(rowTxpush, fun cw => .txpush (cwData cw)), .head _, (hits_iff rowTxpush cw).2 h, rfl⟩

/-- Settles O22: `TXPUSH` ends as `rb_push` does, by its two tests. -/
theorem txpushEnqueuesOrAnswersOverflow : Obligations.TxpushEnqueuesOrAnswersOverflow := by
  refine ⟨fun cw => decodeCommand_of_txpushRow, fun d s => ⟨fun hfull => ?_, fun hroom hbound => ?_,
    fun hroom hbelow => ⟨acceptTx d s, ?_, acceptTx_eq d s, byteAt_acceptTx d s⟩⟩⟩
  · have hpush : rbPush .tx d s = .overflow := rbPush_of_full .tx s hfull d
    simp only [exec, execTxpush, hpush, respond, responseWord_overflow]
  · have hpush : rbPush .tx d s = .cursorOverflow := rbPush_of_bound .tx s hroom hbound d
    simp only [exec, execTxpush, hpush]
  · have hpush : rbPush .tx d s = .ok (insertByte .tx d s) := rbPush_of_room .tx s hroom hbelow d
    simp only [exec, execTxpush, hpush, acceptTx]

end Sys2Proof.Machine
end

section
/-! The consumer's side of the transmit channel: the TX branch alone (R103). -/

namespace Sys2Proof.Machine

/-! ## Output vectors without a read (R64) -/

theorem outVector_silent : outVector false none = 0x000#10 := by decide

theorem outVector_write (b : Byte) : outVector false (some b) = 0b01#2 ++ b :=
  congrArg (· ++ b) (by decide : BitVec.ofBool false ++ BitVec.ofBool true = 0b01#2)

/-! ## `IRQ.TX` -/

/-- `IRQ.TX` is the TX branch, with `OUT` produced from the byte it writes, if any (R138). -/
theorem exec_irqTx (s : State) :
    exec .irqTx s = .next (produceOut (outVector false (txBranch s).2) (txBranch s).1) := rfl

/-- R103: on an empty channel nothing is sent and the source is disabled. -/
theorem exec_irqTx_of_empty {s : State} (hempty : s.tx.wc = s.tx.rc) :
    exec .irqTx s = .next { s with txie := false, out := some 0x000#10 } := by
  rw [exec_irqTx]
  rcases txBranch_cases s with ⟨-, hb⟩ | ⟨hne, -⟩ | ⟨hne, -⟩
  · rw [hb, outVector_silent]
    rfl
  · exact absurd hempty hne
  · exact absurd hempty hne

/-- R103: on a channel that is not empty the oldest byte is sent, and the source is disabled if it was
the last one. -/
theorem exec_irqTx_of_nonempty {s : State} (hne : s.tx.wc ≠ s.tx.rc) :
    exec .irqTx s = .next
      { s with tx := ⟨s.tx.storage, s.tx.wc, s.tx.rc + 1⟩,
               txie := if s.tx.wc = s.tx.rc + 1 then false else s.txie,
               out := some (0b01#2 ++ s.byteAt .tx (s.tx.rc % s.cfg.cTx)) } := by
  rw [exec_irqTx]
  rcases txBranch_cases s with ⟨hempty, -⟩ | ⟨-, hlast, hb⟩ | ⟨-, hmore, hb⟩
  · exact absurd hempty hne
  · rw [hb, outVector_write, if_pos hlast]
    rfl
  · rw [hb, outVector_write, if_neg hmore]
    rfl

/-- Settles O32: the class by its masked vector, the effect by whether `TX` is empty. -/
theorem irqTxSendsOneByteOrDisables : Obligations.IrqTxSendsOneByteOrDisables :=
  ⟨fun ev => (decodeEvent_eq_iff ev 0).2.1.2,
   fun _ => ⟨exec_irqTx_of_empty, exec_irqTx_of_nonempty⟩⟩

end Sys2Proof.Machine
end

section
/-! The consumer's side of the receive channel, and the signal flag it clears (R112, R113, R115). -/

namespace Sys2Proof.Machine

/-! ## `rb_pop` and `rb_peek` by their tests (R84, R86) -/

theorem rbPop_of_empty (ch : Channel) (s : State) (hempty : (s.buf ch).wc = (s.buf ch).rc) :
    rbPop ch s = none :=
  if_pos ((rbIsEmpty_iff ch s).2 hempty)

theorem rbPop_of_nonempty (ch : Channel) (s : State) (hne : (s.buf ch).wc ≠ (s.buf ch).rc) :
    rbPop ch s = some (s.byteAt ch (s.slot ch (s.buf ch).rc), advanceRc ch s) :=
  if_neg (mt (rbIsEmpty_iff ch s).1 hne)

theorem rbPeek_of_length_le (ch : Channel) (s : State) {i : Nat} (hpast : rbLen ch s ≤ i) :
    rbPeek ch i s = none :=
  if_pos hpast

theorem rbPeek_of_lt_length (ch : Channel) (s : State) {i : Nat} (hin : i < rbLen ch s) :
    rbPeek ch i s = some (s.byteAt ch (s.slot ch ((s.buf ch).rc + i))) :=
  if_neg (Nat.not_le.2 hin)

/-! ## `RXPOP` -/

/-- R112: on an empty channel the answer is `NOVALUE` and nothing is removed. -/
theorem exec_rxpop_of_empty {s : State} (hempty : s.rx.wc = s.rx.rc) :
    exec .rxpop s = .next { s with rw := some 0x20000000#32 } := by
  have hpop : rbPop .rx s = none := rbPop_of_empty .rx s hempty
  simp only [exec, execRxpop, hpop, respond, responseWord_noValue]

/-- R112: on a channel that is not empty the oldest byte is answered and the read cursor advanced. -/
theorem exec_rxpop_of_nonempty {s : State} (hne : s.rx.wc ≠ s.rx.rc) :
    exec .rxpop s = .next
      { s with rx := ⟨s.rx.storage, s.rx.wc, s.rx.rc + 1⟩,
               rw := some ((s.byteAt .rx (s.rx.rc % s.cfg.cRx)).setWidth 32) } := by
  have hpop : rbPop .rx s = some (s.byteAt .rx (s.rx.rc % s.cfg.cRx), advanceRc .rx s) :=
    rbPop_of_nonempty .rx s hne
  simp only [exec, execRxpop, hpop, respond, responseWord_byte]
  rfl

/-- Settles O24: the one word by evaluation, the effect by whether `RX` is empty. -/
theorem rxpopReturnsTheOldestByteOrNoValue : Obligations.RxpopReturnsTheOldestByteOrNoValue :=
  ⟨by decide, fun _ => ⟨exec_rxpop_of_empty, exec_rxpop_of_nonempty⟩⟩

/-! ## `RXPEEK` -/

/-- R113: an index at or past the length is answered `NOVALUE`. -/
theorem exec_rxpeek_of_length_le {idx : Nat} {s : State} (hpast : s.rx.wc - s.rx.rc ≤ idx) :
    exec (.rxpeek idx) s = .next { s with rw := some 0x20000000#32 } := by
  have hpeek : rbPeek .rx idx s = none := rbPeek_of_length_le .rx s hpast
  simp only [exec, execRxpeek, hpeek, respond, responseWord_noValue]

/-- R113: an index below the length is answered with the byte that many places after the oldest. -/
theorem exec_rxpeek_of_lt_length {idx : Nat} {s : State} (hin : idx < s.rx.wc - s.rx.rc) :
    exec (.rxpeek idx) s = .next
      { s with rw := some ((s.byteAt .rx ((s.rx.rc + idx) % s.cfg.cRx)).setWidth 32) } := by
  have hpeek : rbPeek .rx idx s = some (s.byteAt .rx ((s.rx.rc + idx) % s.cfg.cRx)) :=
    rbPeek_of_lt_length .rx s hin
  simp only [exec, execRxpeek, hpeek, respond, responseWord_byte]

/-- R113: `RXPEEK 0` answers what `RXPOP` would; both read the slot of the read cursor, or find none. -/
theorem exec_rxpeek_zero_rw {s t u : State} (hle : s.rx.rc ≤ s.rx.wc)
    (hpeek : exec (.rxpeek 0) s = .next t) (hpop : exec .rxpop s = .next u) : t.rw = u.rw := by
  rcases hle.eq_or_lt with hempty | hlt
  · rw [exec_rxpeek_of_length_le (by omega)] at hpeek
    rw [exec_rxpop_of_empty hempty.symm] at hpop
    cases hpeek
    cases hpop
    rfl
  · rw [exec_rxpeek_of_lt_length (by omega)] at hpeek
    rw [exec_rxpop_of_nonempty hlt.ne'] at hpop
    cases hpeek
    cases hpop
    rfl

/-- R113: the state a peek leaves has the same channel, so repeating the peek leaves it again. -/
theorem exec_rxpeek_repeat {idx : Nat} {s t : State} (h : exec (.rxpeek idx) s = .next t) :
    exec (.rxpeek idx) t = .next t := by
  rcases Nat.lt_or_ge idx (s.rx.wc - s.rx.rc) with hin | hpast
  · rw [exec_rxpeek_of_lt_length hin] at h
    cases h
    exact exec_rxpeek_of_lt_length hin
  · rw [exec_rxpeek_of_length_le hpast] at h
    cases h
    exact exec_rxpeek_of_length_le hpast

/-- Settles O25: the word by its row of the opcode map, the answer by the index against the length. -/
theorem rxpeekReadsWithoutRemoving : Obligations.RxpeekReadsWithoutRemoving := by
  obtain ⟨-, -, -, hrow, -⟩ := opcodeMapSelectsByMaskAndMatch
  exact ⟨fun cw hcw => (hrow cw _).2 ⟨hcw, rfl⟩,
    fun _ _ => ⟨exec_rxpeek_of_length_le, exec_rxpeek_of_lt_length⟩,
    fun _ _ _ => exec_rxpeek_zero_rw, fun _ _ _ => exec_rxpeek_repeat⟩

/-! ## `FLAGCLR` -/

/-- R115: `FLAG` is cleared whatever it was, and the answer is `OK` with 0. -/
theorem exec_flagclr (s : State) :
    exec .flagclr s = .next { s with flag := false, rw := some 0x00000000#32 } := by
  simp only [exec, execFlagclr, clearFlag, respond, responseWord_ok]

/-- Settles O27: the one word by evaluation, the effect by `exec_flagclr`. -/
theorem flagclrClearsTheFlag : Obligations.FlagclrClearsTheFlag := ⟨by decide, exec_flagclr⟩

end Sys2Proof.Machine
end

section
/-! The producer's side of the receive channel: the RX branch alone (R111). -/

namespace Sys2Proof.Machine

/-- A read without a write (R64). -/
theorem outVector_read : outVector true none = 0x200#10 := by decide

/-- R111, R134: at the cursor bound the invocation faults. -/
theorem exec_irqRx_of_bound {s : State} (hbound : s.wcBound .rx) (d : Byte) :
    exec (.irqRx d) s = .fault .cursorOverflow :=
  (takeInterrupt_fault_iff (some d) false s .cursorOverflow).2 ⟨rfl, (wcAtBound_iff .rx s).2 hbound⟩

/-- R111: below the bound the byte is inserted, evicting the oldest where `RX` was full, and `FLAG` set. -/
theorem exec_irqRx_below_bound {s : State} (hbelow : ¬ s.wcBound .rx) (d : Byte) :
    ∃ t, exec (.irqRx d) s = .next t ∧
      t = { s with
        rx := ⟨t.rx.storage, s.rx.wc + 1,
          if s.rx.wc - s.rx.rc = s.cfg.cRx then s.rx.rc + 1 else s.rx.rc⟩,
        flag := true, out := some 0x200#10 } ∧
      ∀ ch a, t.byteAt ch a =
        if ch = .rx ∧ a = s.rx.wc % s.cfg.cRx then d else s.byteAt ch a := by
  have hbelow' : wcAtBound .rx s = false := Bool.eq_false_iff.2 (mt (wcAtBound_iff .rx s).1 hbelow)
  obtain ⟨t, hexec, ht, hbyte, -⟩ := takeInterrupt_ok (some d) false s fun _ => hbelow'
  exact ⟨t, hexec, by simpa [outVector_read] using ht, hbyte⟩

/-- Settles O33: the class by its masked vector, the effect by whether `RX.wc` is at the bound. -/
theorem irqRxStoresTheByteAndSetsTheFlag : Obligations.IrqRxStoresTheByteAndSetsTheFlag :=
  ⟨fun ev hev => (decodeEvent_eq_iff ev _).2.2.1.2 ⟨hev, rfl⟩,
   fun d _ => ⟨fun hbound => exec_irqRx_of_bound hbound d,
     fun hbelow => exec_irqRx_below_bound hbelow d⟩⟩

end Sys2Proof.Machine
end

section
/-! The status commands: each answers from the cursors, and no command depends on the response that an
earlier one left on port M (R128). -/

namespace Sys2Proof.Machine

/-! ## Another response on port M -/

/-- The same block with another response on port M: what `respond` and `hold` both leave. -/
def setRw (w : Option Word) (s : State) : State := { s with rw := w }

theorem respond_eq_setRw (st : Status) (v : BitVec 24) (s : State) :
    respond st v s = setRw (some (responseWord st v)) s := rfl

@[simp] theorem setRw_setRw (w w' : Option Word) (s : State) : setRw w (setRw w' s) = setRw w s := rfl

@[simp] theorem respond_setRw (st : Status) (v : BitVec 24) (w : Option Word) (s : State) :
    respond st v (setRw w s) = respond st v s := rfl

@[simp] theorem setRw_cfg (w : Option Word) (s : State) : (setRw w s).cfg = s.cfg := rfl

@[simp] theorem setRw_buf (w : Option Word) (s : State) (ch : Channel) :
    (setRw w s).buf ch = s.buf ch := by cases ch <;> rfl

@[simp] theorem setRw_setBuf (w : Option Word) (s : State) (ch : Channel) (b : RingBuffer) :
    (setRw w s).setBuf ch b = setRw w (s.setBuf ch b) := by cases ch <;> rfl

@[simp] theorem slot_setRw (w : Option Word) (s : State) (ch : Channel) (p : Nat) :
    (setRw w s).slot ch p = s.slot ch p := rfl

@[simp] theorem byteAt_setRw (w : Option Word) (s : State) (ch : Channel) (a : Nat) :
    (setRw w s).byteAt ch a = s.byteAt ch a := byteAt_congr rfl (by rw [setRw_buf]) a

/-! ## The primitives do not see port M -/

@[simp] theorem rbLen_setRw (ch : Channel) (w : Option Word) (s : State) :
    rbLen ch (setRw w s) = rbLen ch s := by simp only [rbLen, setRw_buf]

@[simp] theorem rbIsEmpty_setRw (ch : Channel) (w : Option Word) (s : State) :
    rbIsEmpty ch (setRw w s) = rbIsEmpty ch s := by simp only [rbIsEmpty, setRw_buf]

@[simp] theorem rbIsFull_setRw (ch : Channel) (w : Option Word) (s : State) :
    rbIsFull ch (setRw w s) = rbIsFull ch s := by simp only [rbIsFull, setRw_buf, setRw_cfg]

@[simp] theorem wcAtBound_setRw (ch : Channel) (w : Option Word) (s : State) :
    wcAtBound ch (setRw w s) = wcAtBound ch s := by simp only [wcAtBound, setRw_buf, setRw_cfg]

@[simp] theorem insertByte_setRw (ch : Channel) (b : Byte) (w : Option Word) (s : State) :
    insertByte ch b (setRw w s) = setRw w (insertByte ch b s) := by
  simp only [insertByte_eq, setRw_buf, slot_setRw, setRw_setBuf]

@[simp] theorem advanceRc_setRw (ch : Channel) (w : Option Word) (s : State) :
    advanceRc ch (setRw w s) = setRw w (advanceRc ch s) := by
  simp only [advanceRc_eq, setRw_buf, setRw_setBuf]

/-- Go on from the state an insertion leaves; an insertion that wrote nothing stays. -/
def PushResult.map (f : State → State) : PushResult → PushResult
  | .ok s => .ok (f s)
  | .overflow => .overflow
  | .cursorOverflow => .cursorOverflow

theorem rbPush_setRw (ch : Channel) (b : Byte) (w : Option Word) (s : State) :
    rbPush ch b (setRw w s) = (rbPush ch b s).map (setRw w) := by
  simp only [rbPush, rbIsFull_setRw, wcAtBound_setRw, insertByte_setRw]
  split_ifs <;> rfl

theorem rbPop_setRw (ch : Channel) (w : Option Word) (s : State) :
    rbPop ch (setRw w s) = (rbPop ch s).map (Prod.map id (setRw w)) := by
  simp only [rbPop, rbIsEmpty_setRw, setRw_buf, slot_setRw, byteAt_setRw, advanceRc_setRw]
  split_ifs <;> rfl

theorem rbPeek_setRw (ch : Channel) (i : Nat) (w : Option Word) (s : State) :
    rbPeek ch i (setRw w s) = rbPeek ch i s := by
  simp only [rbPeek, rbLen_setRw, setRw_buf, slot_setRw, byteAt_setRw]

/-- Every command ends by answering or by holding, so the response it finds on port M has no part in what
it does. -/
theorem exec_command_setRw {i : Instr} (hi : i.isCommand = true) (w : Option Word) (s : State) :
    exec i (setRw w s) = exec i s := by
  cases i with
  | txpush d =>
    simp only [exec, execTxpush, rbPush_setRw]
    cases rbPush .tx d s <;> rfl
  | txw d =>
    simp only [exec, execTxw, rbPush_setRw]
    cases rbPush .tx d s <;> rfl
  | rxpop =>
    simp only [exec, execRxpop, rbPop_setRw]
    cases rbPop .rx s <;> rfl
  | rxpeek idx =>
    simp only [exec, execRxpeek, rbPeek_setRw]
    cases rbPeek .rx idx s <;> rfl
  | empty ch => simp only [exec, execEmpty, rbIsEmpty_setRw, respond_setRw]
  | full ch => simp only [exec, execFull, rbIsFull_setRw, respond_setRw]
  | len ch => simp only [exec, execLen, rbLen_setRw, respond_setRw]
  | flagrd => rfl
  | flagclr => rfl
  | irqNone | irqTx | irqRx d | irqRxTx d => cases hi

/-! ## What a status command answers -/

/-- The value a status command answers (R125 to R127); no other instruction has one. -/
def statusValue (s : State) : Instr → BitVec 24
  | .empty ch => boolValue (rbIsEmpty ch s)
  | .full ch => boolValue (rbIsFull ch s)
  | .len ch => lenValue (rbLen ch s)
  | .txpush _ | .txw _ | .rxpop | .rxpeek _ | .flagrd | .flagclr => 0#24
  | .irqNone | .irqTx | .irqRx _ | .irqRxTx _ => 0#24

/-- A status command answers `OK` with its value and writes nothing else. -/
theorem exec_status {i : Instr} (hi : i.isStatus = true) (s : State) :
    exec i s = .next (respond .ok (statusValue s i) s) := by
  cases i with
  | empty ch | full ch | len ch => rfl
  | txpush d | txw d | rxpop | rxpeek idx | flagrd | flagclr => cases hi
  | irqNone | irqTx | irqRx d | irqRxTx d => cases hi

theorem isCommand_of_isStatus {i : Instr} (hi : i.isStatus = true) : i.isCommand = true := by
  cases i with
  | empty ch | full ch | len ch => rfl
  | txpush d | txw d | rxpop | rxpeek idx | flagrd | flagclr => rfl
  | irqNone | irqTx | irqRx d | irqRxTx d => cases hi

/-- R128: the value is "derived purely from the two cursors" of each channel, and the capacities. -/
theorem statusValue_congr {s t : State} (hcfg : s.cfg = t.cfg)
    (hcur : ∀ ch, (s.buf ch).wc = (t.buf ch).wc ∧ (s.buf ch).rc = (t.buf ch).rc) (i : Instr) :
    statusValue s i = statusValue t i := by
  cases i with
  | empty ch => simp only [statusValue, rbIsEmpty, hcur ch]
  | full ch => simp only [statusValue, rbIsFull, hcur ch, hcfg]
  | len ch => simp only [statusValue, rbLen, hcur ch]
  | txpush d | txw d | rxpop | rxpeek idx | flagrd | flagclr => rfl
  | irqNone | irqTx | irqRx d | irqRxTx d => rfl

/-- R128: a repeated status command finds the block it found the first time, but for the response. -/
theorem exec_status_repeat {i : Instr} {s t : State} (hi : i.isStatus = true)
    (h : exec i s = .next t) : exec i t = .next t := by
  have ht : setRw (some (responseWord .ok (statusValue s i))) s = t := by
    rw [exec_status hi] at h
    cases h
    rfl
  calc exec i t = exec i s := ht ▸ exec_command_setRw (isCommand_of_isStatus hi) _ s
    _ = .next t := h

/-- A sequence of status commands goes on to the end and leaves the block but for the response. -/
theorem runAll_status {is : List Instr} (his : ∀ i ∈ is, i.isStatus = true) (s : State) :
    ∃ w, runAll is s = .next (setRw w s) := by
  induction is generalizing s with
  | nil => exact ⟨s.rw, rfl⟩
  | cons i is ih =>
    obtain ⟨hi, his⟩ := List.forall_mem_cons.1 his
    simp only [runAll, exec_status hi, respond_eq_setRw]
    simpa only [setRw_setRw] using ih his (setRw _ s)

/-- Settles O40: the response is the one thing a status command writes, and no command reads it. -/
theorem statusCommandsAreIdempotent : Obligations.StatusCommandsAreIdempotent := by
  refine ⟨fun i s t => exec_status_repeat, fun is s his => ?_,
    fun i s t s' t' hi hcfg hcur hs ht => ?_⟩
  · obtain ⟨w, hrun⟩ := runAll_status his s
    exact ⟨setRw w s, hrun, rfl, fun i hi => exec_command_setRw hi w s⟩
  · rw [exec_status hi] at hs ht
    cases hs
    cases ht
    rw [respond_rw, respond_rw, statusValue_congr hcfg hcur]

end Sys2Proof.Machine
end

section
/-! An invocation by its two predicates: the case where neither holds (R152), and every case (R138). -/

namespace Sys2Proof.Machine

/-! ## Neither predicate -/

/-- `IRQ.NONE` produces `OUT` from no read and no write, and runs neither branch (R152). -/
theorem exec_irqNone (s : State) : exec .irqNone s = .next { s with out := some 0x000#10 } := by
  rw [← outVector_silent]
  rfl

/-- R66: the class of `IRQ.NONE` by the two predicates. -/
theorem decodeEvent_eq_irqNone_iff (ev : EventVec) :
    decodeEvent ev = .irqNone ↔ evRxFull ev = false ∧ evTxReady ev = false := by
  rw [decodeEvent]
  cases evRxFull ev <;> cases evTxReady ev <;> simp

/-- R137: the firing condition asks for one of the two predicates. -/
theorem firingCondition_eq_false {ev : EventVec} (hrx : evRxFull ev = false) (htx : evTxReady ev = false)
    (txie : Bool) : firingCondition ev txie = false := by
  rw [firingCondition, hrx, htx, Bool.false_and, Bool.or_false]

/-- Settles O31: a vector of this class has neither predicate, and the firing condition asks for one. -/
theorem irqNoneDoesNothing : Obligations.IrqNoneDoesNothing := by
  refine ⟨exec_irqNone, fun ev txie hfires hnone => ?_⟩
  obtain ⟨hrx, htx⟩ := (decodeEvent_eq_irqNone_iff ev).1 hnone
  exact Bool.false_ne_true ((firingCondition_eq_false hrx htx txie).symm.trans hfires)

/-! ## The output vector of both halves (R64) -/

/-- The read flag stands above the write flag and the byte written, both 0 where none is written. -/
theorem outVector_ite (rd : Bool) (p : Prop) [Decidable p] (b : Byte) :
    outVector rd (if p then some b else none) = BitVec.ofBool rd ++ (if p then 1#1 ++ b else 0#9) := by
  by_cases hp : p
  · rw [if_pos hp, if_pos hp]
    exact BitVec.append_assoc
  · rw [if_neg hp, if_neg hp]
    revert rd
    decide

/-! ## Every vector -/

theorem evRxFull_eq (ev : EventVec) : evRxFull ev = ev.getLsbD 9 := rfl
theorem evTxReady_eq (ev : EventVec) : evTxReady ev = ev.getLsbD 8 := rfl
theorem evRxData_eq (ev : EventVec) : evRxData ev = ev.extractLsb' 0 8 := rfl

/-- R138: `rx_full` gates the read of the byte. -/
theorem isSome_gatedRead (rd : Bool) (b : Byte) : (if rd then some b else none).isSome = rd := by
  cases rd <;> rfl

/-- R134: an invocation that reads a byte at the cursor bound faults. -/
theorem exec_event_of_bound {ev : EventVec} {s : State} (hrx : evRxFull ev = true) (hbound : s.wcBound .rx) :
    exec (decodeEvent ev) s = .fault .cursorOverflow := by
  rw [exec_event, takeInterrupt_fault_iff, if_pos hrx]
  exact ⟨rfl, (wcAtBound_iff .rx s).2 hbound⟩

/-- Settles O34: the fault where the RX branch meets the bound; else the one shared operation, whose read
is `rx_full` and whose TX half is `tx_ready`. -/
theorem invocationRunsTheBranchesItsPredicatesGate :
    Obligations.InvocationRunsTheBranchesItsPredicatesGate := by
  intro ev s
  rw [← evRxFull_eq, ← evTxReady_eq, ← evRxData_eq]
  refine ⟨fun ⟨hrx, hbound⟩ => exec_event_of_bound hrx hbound, fun hok => ?_⟩
  have hbelow : evRxFull ev = true → wcAtBound .rx s = false := fun hrx =>
    Bool.eq_false_iff.2 fun hb => hok ⟨hrx, (wcAtBound_iff .rx s).1 hb⟩
  obtain ⟨t, hexec, ht, hbyte, -⟩ := takeInterrupt_ok
    (if evRxFull ev then some (evRxData ev) else none) (evTxReady ev) s (by rwa [isSome_gatedRead])
  rw [isSome_gatedRead, outVector_ite] at ht
  refine ⟨t, (exec_event ev s).trans hexec, ht, fun ch a => ?_⟩
  rw [hbyte]
  cases evRxFull ev with
  | false => simp
  | true => simp

end Sys2Proof.Machine
end

section
/-! Encoding and decoding undo one another (R61, R63, R66, R70), and each port carries its own role (R144). -/

namespace Sys2Proof

/-! ## Decoding an encoded instruction -/

/-- A command whose word hits the row that selects it decodes back to it. -/
theorem decode_encode_of_row {i : Instr} {cw : Word} {e : OpRow × (Word → Instr)} (henc : encode i = .m cw)
    (he : e ∈ opTable) (hit : e.1.hits cw = true) (hi : e.2 cw = i) : decode (encode i) = .instr i := by
  rw [henc]
  exact (decodeCommand_eq_instr_iff cw i).2 ⟨e, he, hit, hi.symm⟩

/-- The byte in the `arg` field is the one assembled into it. -/
theorem cwData_byte (op : BitVec 4) (ch : Bool) (d : Byte) :
    cwData (commandWord op ch (d.setWidth 24)) = d := by
  rw [cwData_eq, cwArg_commandWord]
  refine BitVec.eq_of_getLsbD_eq fun i hi => ?_
  have : i < 24 := by omega
  simp [hi, this]

theorem cwIdx_commandWord (op : BitVec 4) (ch : Bool) {idx : Nat} (h : idx < 2 ^ 24) :
    cwIdx (commandWord op ch (BitVec.ofNat 24 idx)) = idx := by
  rw [cwIdx, cwArg_commandWord]
  exact Nat.mod_eq_of_lt h

/-- Settles O11: each command's word hits its own row, whose operands are the fields assembled into it; each
event class is read from the predicates and the byte assembled. -/
theorem decodeUndoesEncode : Obligations.DecodeUndoesEncode := by
  intro i hwf
  cases i with
  | txpush d =>
    exact decode_encode_of_row rfl (e := (rowTxpush, fun cw => .txpush (cwData cw))) (by simp [opTable])
      ((rowTxpush_hits _).2 (by simp [Laws.cwPad_byte])) (congrArg Instr.txpush (cwData_byte _ _ d))
  | txw d =>
    exact decode_encode_of_row rfl (e := (rowTxw, fun cw => .txw (cwData cw))) (by simp [opTable])
      ((rowTxw_hits _).2 (by simp [Laws.cwPad_byte])) (congrArg Instr.txw (cwData_byte _ _ d))
  | rxpop => decide
  | rxpeek idx =>
    have hidx : idx < 2 ^ 24 := of_decide_eq_true hwf
    exact decode_encode_of_row rfl (e := (rowRxpeek, fun cw => .rxpeek (cwIdx cw))) (by simp [opTable])
      ((rowRxpeek_hits _).2 (by simp)) (congrArg Instr.rxpeek (cwIdx_commandWord _ _ hidx))
  | empty ch | full ch | len ch => cases ch <;> decide
  | flagrd | flagclr => decide
  | irqNone | irqTx | irqRx d | irqRxTx d =>
    simp only [encode, decode, decodeEvent, evRxFull_eventVector, evTxReady_eventVector,
      evRxData_eventVector]

/-! ## Encoding a decoded word -/

/-- A command word with no reserved bit set is assembled from its own fields (R61). -/
theorem commandWord_fields {cw : Word} (hrsv : cwRsv cw = 0#3) :
    commandWord (cwOp cw) (cwCh cw) (cwArg cw) = cw := by
  refine BitVec.eq_of_getLsbD_eq fun i hi => ?_
  rw [getLsbD_commandWord]
  simp only [cwArg, cwCh, cwOp, BitVec.getLsbD_extractLsb', Nat.zero_add]
  have hbit : ∀ j < 3, cw.getLsbD (24 + j) = false := by
    intro j hj
    have := congrArg (BitVec.getLsbD · j) hrsv
    simpa [cwRsv, hj] using this
  split_ifs with h24 h27 h28
  · simp [h24]
  · simpa [show 24 + (i - 24) = i by omega] using (hbit (i - 24) (by omega)).symm
  · simp [show i = 27 by omega]
  · simp [show i - 28 < 4 by omega, show 28 + (i - 28) = i by omega]

/-- The same, with the fields named: how a row of the opcode map determines its word. -/
theorem eq_commandWord {cw : Word} {op : BitVec 4} {ch : Bool} {arg : BitVec 24} (hop : cwOp cw = op)
    (hch : cwCh cw = ch) (hrsv : cwRsv cw = 0#3) (harg : cwArg cw = arg) : commandWord op ch arg = cw := by
  subst hop hch harg
  exact commandWord_fields hrsv

/-- With `CW[23:8]` zero the `arg` field is the byte (R61). -/
theorem cwArg_of_pad {cw : Word} (hpad : cwPad cw = 0#16) : cwArg cw = (cwData cw).setWidth 24 := by
  rw [cwPad_eq] at hpad
  rw [cwData_eq]
  refine BitVec.eq_of_getLsbD_eq fun i hi => ?_
  rw [BitVec.getLsbD_setWidth, BitVec.getLsbD_extractLsb']
  by_cases h8 : i < 8
  · simp [hi, h8]
  · have := congrArg (BitVec.getLsbD · (i - 8)) hpad
    simpa [h8, show i - 8 < 16 by omega, show 8 + (i - 8) = i by omega] using this

theorem channelBit_cwChannel (cw : Word) : channelBit (cwChannel cw) = cwCh cw := by
  rw [cwChannel]
  cases cwCh cw <;> rfl

theorem ofNat_cwIdx (cw : Word) : BitVec.ofNat 24 (cwIdx cw) = cwArg cw := by
  rw [cwIdx, BitVec.ofNat_toNat, BitVec.setWidth_eq]

theorem cwIdx_lt (cw : Word) : cwIdx cw < 2 ^ 24 := (cwArg cw).isLt

/-- A word that hits a row is the encoding of the well-formed command the row selects. -/
theorem encode_of_hits {e : OpRow × (Word → Instr)} (he : e ∈ opTable) {cw : Word}
    (hit : e.1.hits cw = true) : (e.2 cw).wellFormed = true ∧ encode (e.2 cw) = .m cw := by
  simp only [opTable, List.mem_cons, List.not_mem_nil, or_false] at he
  rcases he with rfl | rfl | rfl | rfl | rfl | rfl | rfl | rfl | rfl
  · obtain ⟨hop, hch, hrsv, hpad⟩ := (rowTxpush_hits cw).1 hit
    exact ⟨rfl, congrArg PortWord.m (eq_commandWord hop hch hrsv (cwArg_of_pad hpad))⟩
  · obtain ⟨hop, hch, hrsv, hpad⟩ := (rowTxw_hits cw).1 hit
    exact ⟨rfl, congrArg PortWord.m (eq_commandWord hop hch hrsv (cwArg_of_pad hpad))⟩
  · obtain ⟨hop, hch, hrsv, harg⟩ := (rowRxpop_hits cw).1 hit
    exact ⟨rfl, congrArg PortWord.m (eq_commandWord hop hch hrsv harg)⟩
  · obtain ⟨hop, hch, hrsv⟩ := (rowRxpeek_hits cw).1 hit
    exact ⟨decide_eq_true (cwIdx_lt cw),
      congrArg PortWord.m (eq_commandWord hop hch hrsv (ofNat_cwIdx cw).symm)⟩
  · obtain ⟨hop, hrsv, harg⟩ := (rowEmpty_hits cw).1 hit
    exact ⟨rfl, congrArg PortWord.m (eq_commandWord hop (channelBit_cwChannel cw).symm hrsv harg)⟩
  · obtain ⟨hop, hrsv, harg⟩ := (rowFull_hits cw).1 hit
    exact ⟨rfl, congrArg PortWord.m (eq_commandWord hop (channelBit_cwChannel cw).symm hrsv harg)⟩
  · obtain ⟨hop, hrsv, harg⟩ := (rowLen_hits cw).1 hit
    exact ⟨rfl, congrArg PortWord.m (eq_commandWord hop (channelBit_cwChannel cw).symm hrsv harg)⟩
  · obtain ⟨hop, hch, hrsv, harg⟩ := (rowFlagrd_hits cw).1 hit
    exact ⟨rfl, congrArg PortWord.m (eq_commandWord hop hch hrsv harg)⟩
  · obtain ⟨hop, hch, hrsv, harg⟩ := (rowFlagclr_hits cw).1 hit
    exact ⟨rfl, congrArg PortWord.m (eq_commandWord hop hch hrsv harg)⟩

/-- An event vector is assembled from its own fields (R63). -/
theorem eventVector_fields (ev : EventVec) :
    eventVector (evRxFull ev) (evTxReady ev) (evRxData ev) = ev := by
  refine BitVec.eq_of_getLsbD_eq fun i hi => ?_
  rw [getLsbD_eventVector, evRxFull, evTxReady, evRxData, BitVec.getLsbD_extractLsb']
  split_ifs with h8 h9
  · simp [h8]
  · simp [show i = 8 by omega]
  · simp [show i = 9 by omega]

/-- The encoding of an event class is the vector, without the byte where the class ignores it (R63, R70). -/
theorem encode_decodeEvent (ev : EventVec) : encode (decodeEvent ev) =
    .i (eventVector (evRxFull ev) (evTxReady ev) (if evRxFull ev then evRxData ev else 0#8)) := by
  rw [decodeEvent]
  cases evRxFull ev <;> cases evTxReady ev <;> rfl

theorem wellFormed_decodeEvent (ev : EventVec) : (decodeEvent ev).wellFormed = true := by
  rw [decodeEvent]
  cases evRxFull ev <;> cases evTxReady ev <;> rfl

/-- Settles O12: a legal command word hits a row, whose fields determine the word; an event vector is
its fields, the byte cleared where `rx_full` is 0. -/
theorem legalWordIsTheEncodingOfItsInstruction : Obligations.LegalWordIsTheEncodingOfItsInstruction := by
  refine ⟨fun cw i hdec => ?_, fun ev => ⟨wellFormed_decodeEvent ev, ?_⟩⟩
  · obtain ⟨e, he, hit, rfl⟩ := (decodeCommand_eq_instr_iff cw i).1 hdec
    exact encode_of_hits he hit
  · rw [encode_decodeEvent, ← Machine.evRxFull_eq, and_eventMask]
    cases hrx : evRxFull ev with
    | false => rfl
    | true => exact congrArg PortWord.i (by simpa [hrx] using eventVector_fields ev)

/-! ## The two ports -/

/-- Port I carries event classes only (R144). -/
theorem isCommand_decodeEvent (ev : EventVec) : (decodeEvent ev).isCommand = false := by
  rw [decodeEvent]
  cases evRxFull ev <;> cases evTxReady ev <;> rfl

/-- Settles O15: the rows select commands, and the four classes are none. -/
theorem eachPortCarriesOnlyItsOwnRole : Obligations.EachPortCarriesOnlyItsOwnRole :=
  ⟨fun _ _ => isCommand_of_decodeCommand, isCommand_decodeEvent⟩

/-- Settles O16: the decoder evaluated on the five words. -/
theorem sampleWordsDecodeAsTheSpecEncodesThem : Obligations.SampleWordsDecodeAsTheSpecEncodesThem := by
  unfold Obligations.SampleWordsDecodeAsTheSpecEncodesThem
  decide

end Sys2Proof
end

section
/-! What port M answers: the status commands and `FLAGRD` (R114, R125 to R127), the form of every response
(R62), and `TXW` against `TXPUSH` (R102, R104). -/

namespace Sys2Proof.Machine

/-! ## The status commands and `FLAGRD` in closed form -/

/-- A truth value as the whole response word. -/
theorem respond_bool (b : Bool) (s : State) :
    respond .ok (boolValue b) s = { s with rw := some (if b then 1#32 else 0#32) } := by
  rw [respond, responseWord_bool]

/-- R125: the cursors are compared. -/
theorem exec_empty (ch : Channel) (s : State) : exec (.empty ch) s =
    .next { s with rw := some (if (s.buf ch).wc = (s.buf ch).rc then 1#32 else 0#32) } := by
  rw [exec_status rfl, statusValue, respond_bool]
  simp only [rbIsEmpty_iff]

/-- R126: the difference of the cursors is compared with the capacity. -/
theorem exec_full (ch : Channel) (s : State) : exec (.full ch) s =
    .next { s with
      rw := some (if (s.buf ch).wc - (s.buf ch).rc = s.cfg.capacity ch then 1#32 else 0#32) } := by
  rw [exec_status rfl, statusValue, respond_bool]
  simp only [rbIsFull_iff]

/-- R127: the difference of the cursors, in 24 bits. -/
theorem exec_len (ch : Channel) (s : State) : exec (.len ch) s =
    .next { s with rw := some ((BitVec.ofNat 24 ((s.buf ch).wc - (s.buf ch).rc)).setWidth 32) } := by
  rw [exec_status rfl, statusValue, respond, responseWord_len, rbLen]

/-- R114: the flag is answered. -/
theorem exec_flagrd (s : State) :
    exec .flagrd s = .next { s with rw := some (if s.flag then 1#32 else 0#32) } :=
  congrArg Host.Outcome.next (respond_bool s.flag s)

/-- Settles O28: the answer of `rb_is_empty`. -/
theorem emptyAnswersWhetherCursorsAreEqual : Obligations.EmptyAnswersWhetherCursorsAreEqual := exec_empty

/-- Settles O29: the answer of `rb_is_full`. -/
theorem fullAnswersWhetherDifferenceIsCapacity : Obligations.FullAnswersWhetherDifferenceIsCapacity :=
  exec_full

/-- Settles O30: the answer of `rb_len`. -/
theorem lenAnswersTheDifferenceOfTheCursors : Obligations.LenAnswersTheDifferenceOfTheCursors := exec_len

/-- Settles O26: the one word by evaluation, the answer by `exec_flagrd`. -/
theorem flagrdAnswersTheFlag : Obligations.FlagrdAnswersTheFlag := ⟨by decide, exec_flagrd⟩

/-! ## The length fits its field -/

theorem valid_capacity_lt {p : Params} (h : p.valid = true) (ch : Channel) : p.capacity ch < 2 ^ 24 := by
  simp only [Params.valid, Bool.and_eq_true, decide_eq_true_eq] at h
  cases ch <;> simp <;> omega

theorem State.Inv.ringOk {s : State} (h : s.Inv) (ch : Channel) : s.RingOk ch := by
  obtain ⟨-, hrx, htx⟩ := h
  cases ch
  · exact hrx
  · exact htx

/-- R65: a length below `2^24` is read back from the response word. -/
theorem ofNat_setWidth_of_lt {n : Nat} (h : n < 2 ^ 24) :
    (BitVec.ofNat 24 n).setWidth 32 = BitVec.ofNat 32 n :=
  BitVec.eq_of_toNat_eq (by simp; omega)

/-- A truth value is answered 1 exactly where it holds. -/
theorem answers_one_iff (s : State) (p : Prop) [Decidable p] :
    (Host.Outcome.next { s with rw := some (if p then 1#32 else 0#32) } : Result)
      = .next { s with rw := some 1#32 } ↔ p := by
  by_cases hp : p
  · simp [hp]
  · simp [hp]

/-- Settles O10: the length is the difference of the cursors, which INV-RB bounds by the capacity and R5
below `2^24`; the two tests compare the same two cursors. -/
theorem statusCommandsAgreeOnTheLength : Obligations.StatusCommandsAgreeOnTheLength := by
  intro s ch hinv
  obtain ⟨hle, hcap, -⟩ := hinv.ringOk ch
  have hfits := valid_capacity_lt hinv.1 ch
  refine ⟨(s.buf ch).wc - (s.buf ch).rc, hcap, by omega, ?_, by omega, ?_, ?_⟩
  · rw [exec_len, ofNat_setWidth_of_lt (by omega)]
  · rw [exec_empty, answers_one_iff]
    omega
  · rw [exec_full, answers_one_iff]

/-! ## How a command ends -/

/-- A command that goes on is a held `TXW`, or it ends in a response whose value is 0 unless it is `OK`;
MAIN is left to receive it. -/
theorem exec_command_ends {i : Instr} (hi : i.isCommand = true) {s t : State} (h : exec i s = .next t) :
    ((∃ d, i = .txw d) ∧ rbIsFull .tx s = true ∧ t = hold s) ∨
    ∃ st v u, (st = .ok ∨ v = 0#24) ∧ u.main = s.main ∧ t = respond st v u := by
  cases i with
  | txpush d =>
    rcases rbPush_cases .tx d s with ⟨-, e⟩ | ⟨-, -, e⟩ | ⟨-, -, e⟩ <;>
      simp only [exec, execTxpush, e] at h <;> cases h
    · exact .inr ⟨_, _, s, .inr rfl, rfl, rfl⟩
    · exact .inr ⟨_, _, _, .inr rfl, by simp [insertByte_eq], rfl⟩
  | txw d =>
    rcases rbPush_cases .tx d s with ⟨hf, e⟩ | ⟨-, -, e⟩ | ⟨-, -, e⟩ <;>
      simp only [exec, execTxw, e] at h <;> cases h
    · exact .inl ⟨⟨d, rfl⟩, hf, rfl⟩
    · exact .inr ⟨_, _, _, .inr rfl, by simp [insertByte_eq], rfl⟩
  | rxpop =>
    rcases rbPop_cases .rx s with ⟨-, e⟩ | ⟨-, e⟩ <;> simp only [exec, execRxpop, e] at h <;> cases h
    · exact .inr ⟨_, _, s, .inr rfl, rfl, rfl⟩
    · exact .inr ⟨_, _, _, .inl rfl, by simp [advanceRc_eq], rfl⟩
  | rxpeek idx =>
    simp only [exec, execRxpeek] at h
    split at h <;> cases h
    · exact .inr ⟨_, _, s, .inr rfl, rfl, rfl⟩
    · exact .inr ⟨_, _, s, .inl rfl, rfl, rfl⟩
  | empty ch | full ch | len ch | flagrd =>
    cases h
    exact .inr ⟨_, _, s, .inl rfl, rfl, rfl⟩
  | flagclr =>
    cases h
    exact .inr ⟨_, _, clearFlag s, .inl rfl, rfl, rfl⟩
  | irqNone | irqTx | irqRx d | irqRxTx d => cases hi

/-- The fields of a response word whose value is 0 unless it is `OK` (R62). -/
theorem responseWord_format {st : Status} {v : BitVec 24} (h : st = .ok ∨ v = 0#24) :
    (responseWord st v).extractLsb' 24 4 = 0#4 ∧ (responseWord st v).extractLsb' 28 4 ≤ 3#4 ∧
      ((responseWord st v).extractLsb' 28 4 ≠ 0#4 → (responseWord st v).extractLsb' 0 24 = 0#24) := by
  obtain ⟨hzero, hstatus, hvalue⟩ := responseWord_fields st v
  rw [hzero, hstatus, hvalue]
  refine ⟨rfl, by cases st <;> decide, fun hne => ?_⟩
  rcases h with rfl | rfl
  · exact absurd rfl hne
  · rfl

/-- Settles O41: a legal word ends in a response of this form or in a hold, which has none; an illegal word
is answered by one too. -/
theorem everyResponseHasTheResponseFormat : Obligations.EveryResponseHasTheResponseFormat := by
  intro cw s t rw h hrw
  cases hd : decodeCommand cw with
  | instr i =>
    rw [runCommand, hd] at h
    rcases exec_command_ends (isCommand_of_decodeCommand hd) h with
      ⟨-, -, rfl⟩ | ⟨st, v, u, hv, -, rfl⟩
    · cases hrw
    · cases hrw
      exact responseWord_format hv
  | illegal why =>
    rw [runCommand, hd] at h
    cases h
    cases hrw
    exact responseWord_format (.inr rfl)

/-! ## `TXW` -/

/-- R102: a full channel holds the command. -/
theorem exec_txw_of_full {s : State} (hfull : s.tx.wc - s.tx.rc = s.cfg.cTx) (d : Byte) :
    exec (.txw d) s = .next { s with rw := none } := by
  have hpush : rbPush .tx d s = .overflow := rbPush_of_full .tx s hfull d
  simp only [exec, execTxw, hpush, hold]

/-- R104: the two commands differ on a full channel alone. -/
theorem exec_txw_eq_txpush {s : State} (hroom : s.tx.wc - s.tx.rc ≠ s.cfg.cTx) (d : Byte) :
    exec (.txw d) s = exec (.txpush d) s := by
  rcases rbPush_cases .tx d s with ⟨hf, -⟩ | ⟨-, -, e⟩ | ⟨-, -, e⟩
  · exact absurd ((rbIsFull_iff .tx s).1 hf) hroom
  · simp only [exec, execTxw, execTxpush, e]
  · simp only [exec, execTxw, execTxpush, e]

/-- Settles O52: by the shared `rb_push`. -/
theorem txwIsTxpushWhileNotFull : Obligations.TxwIsTxpushWhileNotFull :=
  fun d _ hroom => exec_txw_eq_txpush hroom d

/-- The row of `TXW` in the opcode map (R66). -/
theorem decodeCommand_of_txwRow {cw : Word} (h : cw &&& 0xFFFFFF00#32 = 0x28000000#32) :
    decodeCommand cw = .instr (.txw (cw.extractLsb' 0 8)) :=
  (opcodeMapSelectsByMaskAndMatch.2.1 cw _).2 ⟨h, rfl⟩

/-- Settles O23: the hold on a full channel; elsewhere `TXW` is `TXPUSH`. -/
theorem txwEnqueuesOrIsHeld : Obligations.TxwEnqueuesOrIsHeld := by
  refine ⟨fun cw => decodeCommand_of_txwRow, fun d s => ⟨fun hfull => exec_txw_of_full hfull d, ?_, ?_⟩⟩ <;>
    intro hroom <;> rw [exec_txw_eq_txpush hroom d]
  · exact (txpushEnqueuesOrAnswersOverflow.2 d s).2.1 hroom
  · exact (txpushEnqueuesOrAnswersOverflow.2 d s).2.2 hroom

end Sys2Proof.Machine
end

section
/-! Where an instruction faults (R134, R150), and which fields each context writes (R32, R144). -/

namespace Sys2Proof.Machine

/-! ## Faults -/

/-- No meaning refuses: the refusal of a configuration is the step's (R6). -/
theorem exec_not_refused (i : Instr) (s : State) (r : Refusal) : exec i s ≠ .refused r := by
  cases i with
  | txpush d => rcases rbPush_cases .tx d s with ⟨-, e⟩ | ⟨-, -, e⟩ | ⟨-, -, e⟩ <;> simp [exec, execTxpush, e]
  | txw d => rcases rbPush_cases .tx d s with ⟨-, e⟩ | ⟨-, -, e⟩ | ⟨-, -, e⟩ <;> simp [exec, execTxw, e]
  | rxpop => rcases rbPop_cases .rx s with ⟨-, e⟩ | ⟨-, e⟩ <;> simp [exec, execRxpop, e]
  | rxpeek idx =>
    simp only [exec, execRxpeek]
    split <;> simp
  | empty ch | full ch | len ch | flagrd | flagclr => nofun
  | irqNone => exact takeInterrupt_not_refused none false s r
  | irqTx => exact takeInterrupt_not_refused none true s r
  | irqRx d => exact takeInterrupt_not_refused (some d) false s r
  | irqRxTx d => exact takeInterrupt_not_refused (some d) true s r

/-- R134: a push that is not rejected faults at the bound. -/
theorem exec_push_fault_iff {i : Instr} {d : Byte} (hi : i = .txpush d ∨ i = .txw d) (s : State) :
    (∃ r, exec i s = .fault r) ↔ s.tx.wc - s.tx.rc ≠ s.cfg.cTx ∧ s.wcBound .tx := by
  by_cases hfull : s.tx.wc - s.tx.rc = s.cfg.cTx
  · have hpush : rbPush .tx d s = .overflow := rbPush_of_full .tx s hfull d
    rcases hi with rfl | rfl <;> simp [exec, execTxpush, execTxw, hpush, hfull]
  · by_cases hb : s.wcBound .tx
    · have hpush : rbPush .tx d s = .cursorOverflow := rbPush_of_bound .tx s hfull hb d
      refine iff_of_true ⟨.cursorOverflow, ?_⟩ ⟨hfull, hb⟩
      rcases hi with rfl | rfl <;> simp [exec, execTxpush, execTxw, hpush]
    · have hpush : rbPush .tx d s = .ok (insertByte .tx d s) := rbPush_of_room .tx s hfull hb d
      rcases hi with rfl | rfl <;> simp [exec, execTxpush, execTxw, hpush, hb]

/-- R134: an invocation faults where its RX branch runs at the bound. -/
theorem exists_takeInterrupt_fault_iff (rx : Option Byte) (tr : Bool) (s : State) :
    (∃ r, takeInterrupt rx tr s = .fault r) ↔ rx.isSome = true ∧ s.wcBound .rx := by
  simp only [takeInterrupt_fault_iff, wcAtBound_iff, exists_const_iff, State.wcBound]
  exact and_iff_right ⟨.cursorOverflow⟩

/-- Settles O39: a push by `rb_push`, an invocation by its RX half; no other instruction inserts a byte. -/
theorem faultsAreExactlyCursorOverflow : Obligations.FaultsAreExactlyCursorOverflow := by
  refine ⟨fun i s => ?_, exec_not_refused⟩
  cases i with
  | txpush d => simpa using exec_push_fault_iff (.inl rfl) s
  | txw d => simpa using exec_push_fault_iff (.inr rfl) s
  | rxpop => rcases rbPop_cases .rx s with ⟨-, e⟩ | ⟨-, e⟩ <;> simp [exec, execRxpop, e]
  | rxpeek idx =>
    simp only [exec, execRxpeek]
    split <;> simp
  | empty ch | full ch | len ch | flagrd | flagclr =>
    simp [exec, execEmpty, execFull, execLen, execFlagrd, execFlagclr]
  | irqNone => exact (exists_takeInterrupt_fault_iff none false s).trans (by simp)
  | irqTx => exact (exists_takeInterrupt_fault_iff none true s).trans (by simp)
  | irqRx d => exact (exists_takeInterrupt_fault_iff (some d) false s).trans (by simp)
  | irqRxTx d => exact (exists_takeInterrupt_fault_iff (some d) true s).trans (by simp)

/-- An instruction that does not fault goes on. -/
theorem exec_next_of_not_fault {i : Instr} {s : State} (h : ¬ ∃ r, exec i s = .fault r) :
    ∃ t, exec i s = .next t := by
  cases he : exec i s with
  | next t => exact ⟨t, rfl⟩
  | fault r => exact absurd ⟨r, he⟩ h
  | refused r => exact absurd he (exec_not_refused i s r)

/-! ## Who writes what -/

/-- Every event class is the one a vector decodes to. -/
theorem exists_decodeEvent {i : Instr} (hi : i.isCommand = false) : ∃ ev, decodeEvent ev = i := by
  have hdec := decodeUndoesEncode i
  cases i with
  | irqNone | irqTx | irqRx d | irqRxTx d => exact ⟨_, Decoded.instr.inj (hdec rfl)⟩
  | txpush d | txw d | rxpop | rxpeek idx | empty ch | full ch | len ch | flagrd | flagclr => cases hi

/-- The whole state an invocation that goes on leaves, but for the storage of `RX` (R138). -/
theorem exec_event_next {ev : EventVec} {s t : State} (h : exec (decodeEvent ev) s = .next t) :
    t = { s with
      rx := if evRxFull ev then
          ⟨t.rx.storage, s.rx.wc + 1, if s.rx.wc - s.rx.rc = s.cfg.cRx then s.rx.rc + 1 else s.rx.rc⟩
        else s.rx,
      flag := if evRxFull ev then true else s.flag,
      tx := if evTxReady ev = true ∧ s.tx.wc ≠ s.tx.rc then ⟨s.tx.storage, s.tx.wc, s.tx.rc + 1⟩
        else s.tx,
      txie := if evTxReady ev = true ∧ (s.tx.wc = s.tx.rc ∨ s.tx.wc = s.tx.rc + 1) then false else s.txie,
      out := some (outVector (evRxFull ev)
        (if evTxReady ev = true ∧ s.tx.wc ≠ s.tx.rc then some (s.byteAt .tx (s.tx.rc % s.cfg.cTx))
          else none)) } := by
  rw [exec_event] at h
  obtain ⟨t', h', ht, -⟩ := takeInterrupt_ok _ _ s (takeInterrupt_next_bound h)
  rw [h] at h'
  cases h'
  simpa only [isSome_gatedRead] using ht

/-- R32: the fields a command leaves alone. -/
theorem exec_command_frame {i : Instr} (hi : i.isCommand = true) {s t : State} (h : exec i s = .next t) :
    (t.cfg = s.cfg ∧ t.draw = s.draw ∧ t.main = s.main ∧ t.uart = s.uart ∧ t.sched = s.sched) ∧
    t.rx.wc = s.rx.wc ∧ t.rx.storage = s.rx.storage ∧ t.tx.rc = s.tx.rc ∧ t.out = s.out ∧
      (t.flag = true → s.flag = true) ∧ (s.txie = true → t.txie = true) := by
  rcases exec_command_cases i hi s t h with
    ⟨-, rw, rfl⟩ | ⟨d, -, -, -, rfl⟩ | ⟨-, -, rw, rfl⟩ | ⟨-, rw, rfl⟩
  · simp
  · simp [insertByte_eq]
  · simp [advanceRc_eq]
  · simp

/-- R32: the fields an invocation leaves alone. -/
theorem exec_event_frame {i : Instr} (hi : i.isCommand = false) {s t : State} (h : exec i s = .next t) :
    (t.cfg = s.cfg ∧ t.draw = s.draw ∧ t.main = s.main ∧ t.uart = s.uart ∧ t.sched = s.sched) ∧
    t.tx.wc = s.tx.wc ∧ t.tx.storage = s.tx.storage ∧ t.rw = s.rw ∧
      (s.flag = true → t.flag = true) ∧ (t.txie = true → s.txie = true) := by
  obtain ⟨ev, rfl⟩ := exists_decodeEvent hi
  rw [exec_event_next h]
  refine ⟨⟨rfl, rfl, rfl, rfl, rfl⟩, ?_, ?_, rfl, ?_, ?_⟩
  · dsimp only
    split <;> rfl
  · dsimp only
    split <;> rfl
  · intro hflag
    simp [hflag]
  · dsimp only
    split
    · exact (nomatch ·)
    · exact id

/-- Settles O38: the frame of a command and the frame of an invocation. -/
theorem eachContextWritesOnlyItsOwnFields : Obligations.EachContextWritesOnlyItsOwnFields := by
  intro i s t h
  cases hi : i.isCommand with
  | true =>
    obtain ⟨hagents, hframe⟩ := exec_command_frame hi h
    exact ⟨hagents, fun _ => hframe, (nomatch ·)⟩
  | false =>
    obtain ⟨hagents, hframe⟩ := exec_event_frame hi h
    exact ⟨hagents, (nomatch ·), fun _ => hframe⟩

end Sys2Proof.Machine
end

section
/-! Configuration and reset (R5, R6, R30, R160, R161). -/

namespace Sys2Proof.Machine

/-- R5: the clauses of validity, the last one for a finite width alone. -/
theorem valid_iff (p : Params) : p.valid = true ↔
    1 ≤ p.cTx ∧ 1 ≤ p.cRx ∧ p.cTx < p.cRx ∧ p.cRx ≤ 2 ^ 24 - 1 ∧ p.cTx ≤ 2 ^ 24 - 1 ∧
      ∀ w, p.w = some w → p.cRx ≤ 2 ^ w - 1 ∧ p.cTx ≤ 2 ^ w - 1 := by
  have hfits : p.fitsCursor = true ↔ ∀ w, p.w = some w → p.cRx ≤ 2 ^ w - 1 ∧ p.cTx ≤ 2 ^ w - 1 := by
    rw [Params.fitsCursor]
    cases p.w <;> simp
  simp only [Params.valid, Bool.and_eq_true, decide_eq_true_eq, hfits, and_assoc]

/-- Settles O2: the clauses of R5; construction and the step test the triple before anything else. -/
theorem invalidConfigurationIsRefused : Obligations.InvalidConfigurationIsRefused :=
  ⟨valid_iff, fun _ _ h => if_neg (Bool.eq_false_iff.1 h), fun _ h => if_neg (Bool.eq_false_iff.1 h)⟩

/-- Both channels are empty after reset. -/
theorem buf_resetFor (p : Params) (draw : Nat) (ch : Channel) :
    (State.resetFor p draw).buf ch = .atReset := by cases ch <;> rfl

/-- A channel of a valid configuration is not full after reset, its capacity being at least 1. -/
theorem resetFor_not_full {p : Params} (h : p.valid = true) (draw : Nat) (ch : Channel) :
    ¬ ((State.resetFor p draw).buf ch).wc - ((State.resetFor p draw).buf ch).rc = p.capacity ch := by
  rw [buf_resetFor]
  exact (valid_capacity_pos h ch).ne

/-- Settles O3: the answers of the status commands on equal cursors; with no turn to come nothing runs. -/
theorem resetAnswersEmptyAndWaits : Obligations.ResetAnswersEmptyAndWaits := by
  refine fun p draw hvalid => ⟨fun ch => ?_, fun ch => ?_, fun ch => ?_, exec_flagrd _, rfl, if_pos hvalid⟩
  · rw [exec_len, buf_resetFor]
    rfl
  · rw [exec_empty, buf_resetFor]
    rfl
  · rw [exec_full]
    exact congrArg (fun w => Host.Outcome.next { State.resetFor p draw with rw := some w })
      (if_neg (resetFor_not_full hvalid draw ch))

theorem holdsCursor_zero (p : Params) : holdsCursor p 0 = true := by
  rw [holdsCursor]
  cases p.w <;> simp

/-- INV-RB after reset: nothing is stored and the cursors are 0. -/
theorem ringOk_resetFor (p : Params) (draw : Nat) (ch : Channel) : (State.resetFor p draw).RingOk ch := by
  rw [State.RingOk, buf_resetFor]
  exact ⟨le_refl 0, Nat.zero_le _, holdsCursor_zero p, List.Pairwise.nil, by simp [RingBuffer.atReset]⟩

/-- Settles O4: both channels are empty and `TXIE` is 0. -/
theorem resetSatisfiesTheInvariants : Obligations.ResetSatisfiesTheInvariants := by
  refine fun p draw hvalid => ⟨⟨hvalid, ringOk_resetFor p draw .rx, ringOk_resetFor p draw .tx⟩, ?_, ?_⟩
  · exact iff_of_false Bool.false_ne_true (Nat.lt_irrefl 0)
  · intro ch _ i hi
    rw [rbLen, buf_resetFor] at hi
    exact absurd hi (Nat.not_lt_zero i)

end Sys2Proof.Machine
end

section
/-! The step, turn by turn: what each turn performs, and who hears of it (R68, R73, R138, R146). -/

namespace Sys2Proof.Machine

/-! ## The head turn -/

/-- In a valid configuration the step takes the turn that is next. -/
theorem step_of_turn {s : State} {tn : Turn} {rest : List Turn} (hvalid : s.cfg.valid = true)
    (hsched : s.sched = tn :: rest) : step s = takeTurn tn { s with sched := rest } := by
  rw [step, stepTurn, if_pos hvalid, hsched]

/-- MAIN's turn runs the word it presents, and MAIN receives the response. -/
theorem mainTurn_of_present {s : State} {item : MainItem} {more : List MainItem} {cw : Word}
    (hprog : s.main.prog = item :: more) (hword : item.present = some cw) :
    mainTurn s = onNext (deliver item more) (runCommand cw s) := by
  simp only [mainTurn, hprog, hword]

theorem runCommand_legal {cw : Word} {i : Instr} (h : decodeCommand cw = .instr i) (s : State) :
    runCommand cw s = exec i s := by
  rw [runCommand, h]

/-- Settles O17: the turn runs the word, which is the instruction's meaning or the illegal answer. -/
theorem stepPerformsThePresentedCommand : Obligations.StepPerformsThePresentedCommand := by
  intro s rest item more cw hvalid hsched hprog hword
  have hstep : step s = onNext (deliver item more) (runCommand cw { s with sched := rest }) :=
    (step_of_turn hvalid hsched).trans (mainTurn_of_present hprog hword)
  refine ⟨fun i hdec => ?_, fun why hdec => ?_⟩
  · rw [hstep, runCommand_legal hdec]
  · rw [hstep, runCommand_illegal hdec, onNext]

/-- Settles O18: an event's turn is its invocation. -/
theorem stepPerformsTheInvocation : Obligations.StepPerformsTheInvocation :=
  fun _ _ _ hvalid hsched => step_of_turn hvalid hsched

/-! ## The reference environment (R146) -/

/-- "An invocation may fire iff `rxp != None`, or `txb = 0` and `TXIE = 1`" (R146). -/
theorem mayFire_iff (u : Uart) (txie : Bool) :
    u.mayFire txie = true ↔ u.rxp ≠ none ∨ (u.txb = false ∧ txie = true) := by
  simp [Uart.mayFire, Uart.rxPending, Uart.txPending, Option.isSome_iff_ne_none]

/-- A fired invocation carries the environment's vector. -/
theorem fireTurn_of_mayFire {s : State} (h : s.uart.mayFire s.txie = true) :
    fireTurn s = onNext reactUart (exec (decodeEvent s.uart.vector) s) := if_pos h

/-- R64, R146: the outputs act on the UART field by field. -/
theorem react_eq (o : OutVec) (u : Uart) : u.react o =
    { rxp := if o.getLsbD 9 then none else u.rxp,
      txb := if o.getLsbD 8 then true else u.txb,
      line := if o.getLsbD 8 then u.line ++ [o.extractLsb' 0 8] else u.line } := by
  rw [Uart.react, Uart.takeWrite, Uart.takeRead, outWr, outRd, outWdata]
  cases o.getLsbD 9 <;> cases o.getLsbD 8 <;> rfl

theorem reactUart_of_out {s : State} {o : OutVec} (h : s.out = some o) :
    reactUart s = { s with uart := s.uart.react o } := by
  rw [reactUart, h]

/-- Settles O21: the turns of the reference environment, and the reaction field by field. -/
theorem referenceEnvironmentSteps : Obligations.ReferenceEnvironmentSteps := by
  refine ⟨fun _ _ => rfl, ?_, ?_, ?_, fun s o hout => by rw [reactUart_of_out hout, react_eq]⟩
  · intro s rest b hvalid hsched
    rw [step_of_turn hvalid hsched, takeTurn, Uart.arrive]
    refine ⟨fun hnone => by rw [hnone], fun hsome => ?_⟩
    obtain ⟨b', hb'⟩ := Option.ne_none_iff_exists'.1 hsome
    rw [hb']
  · intro s rest hvalid hsched
    rw [step_of_turn hvalid hsched, takeTurn, Uart.txdone]
    exact ⟨fun _ => rfl, fun hidle => by rw [← hidle]⟩
  · intro s rest hvalid hsched
    rw [step_of_turn hvalid hsched, takeTurn]
    refine ⟨fun hfire => ⟨s.uart.vector, ?_, ?_, ?_, ?_⟩, fun hno => if_neg (mt (mayFire_iff _ _).1 hno)⟩
    · exact evRxFull_eventVector _ _ _
    · exact evTxReady_eventVector _ _ _
    · intro b hb
      rw [← evRxData_eq, Uart.vector, evRxData_eventVector, hb, Option.getD_some]
    · exact fireTurn_of_mayFire (s := { s with sched := rest }) ((mayFire_iff _ _).2 hfire)

/-! ## Who is held, and who goes on (R73) -/

@[simp] theorem reactUart_main (s : State) : (reactUart s).main = s.main := by
  unfold reactUart
  split <;> rfl

@[simp] theorem reactUart_rw (s : State) : (reactUart s).rw = s.rw := by
  unfold reactUart
  split <;> rfl

/-- MAIN receives a response: it goes on with the rest of the item. -/
theorem deliver_respond (item : MainItem) (more : List MainItem) (st : Status) (v : BitVec 24) (s : State) :
    deliver item more (respond st v s) =
      { respond st v s with
        main := { prog := item.after (responseWord st v) ++ more,
                  heard := s.main.heard ++ [responseWord st v],
                  emitted := s.main.emitted ++ item.emits (responseWord st v) } } := rfl

/-- A command other than a held `TXW` faults, or MAIN hears its answer and goes on. -/
theorem deliver_exec_command {i : Instr} (hi : i.isCommand = true) {s : State}
    (hnot : ¬ ((∃ d, i = .txw d) ∧ rbIsFull .tx s = true)) (cw : Word) (more : List MainItem) :
    onNext (deliver (.word cw) more) (exec i s) = .fault .cursorOverflow ∨
    ∃ t rw, onNext (deliver (.word cw) more) (exec i s) = .next t ∧ t.rw = some rw ∧ t.main.prog = more ∧
      t.main.heard = s.main.heard ++ [rw] := by
  cases he : exec i s with
  | fault r => exact .inl rfl
  | refused r => exact absurd he (exec_not_refused i s r)
  | next t =>
    rcases exec_command_ends hi he with ⟨htxw, hfull, -⟩ | ⟨st, v, u, -, hmain, rfl⟩
    · exact absurd ⟨htxw, hfull⟩ hnot
    · exact .inr ⟨_, responseWord st v, rfl, rfl, rfl, by rw [deliver_respond, hmain]⟩

/-- An invocation reaches neither MAIN nor port M. -/
theorem invocation_keeps_main {ev : EventVec} {s t : State} (h : invocation ev s = .next t) :
    t.main = s.main ∧ t.rw = s.rw := by
  obtain ⟨u, hexec, rfl⟩ := onNext_next h
  obtain ⟨⟨-, -, hmain, -⟩, -, -, hrw, -⟩ := exec_event_frame (isCommand_decodeEvent ev) hexec
  rw [reactUart_main, reactUart_rw]
  exact ⟨hmain, hrw⟩

/-- Settles O19: a legal `TXW` on a full channel is the hold; any other word ends in a response or in the
fault; and an invocation keeps to its own fields. -/
theorem onlyAFullTransmitChannelHoldsMain : Obligations.OnlyAFullTransmitChannelHoldsMain := by
  refine ⟨fun s rest cw more hvalid hsched hprog => ?_, fun s t rest ev hsched h => ?_⟩
  · obtain ⟨hlegal, hillegal⟩ := stepPerformsThePresentedCommand s rest _ more cw hvalid hsched hprog rfl
    refine ⟨fun ⟨⟨d, hdec⟩, hfull⟩ => ?_, fun hnot => ?_⟩
    · rw [hlegal _ hdec, exec_txw_of_full (s := { s with sched := rest }) hfull]
      rfl
    · cases hdec : decodeCommand cw with
      | instr i =>
        rw [hlegal i hdec]
        refine deliver_exec_command (isCommand_of_decodeCommand hdec) ?_ cw more
        rintro ⟨⟨d, rfl⟩, hfull⟩
        exact hnot ⟨⟨d, hdec⟩, (rbIsFull_iff .tx _).1 hfull⟩
      | illegal why => exact .inr ⟨_, 0x30000000#32, hillegal why hdec, rfl, rfl, rfl⟩
  · obtain ⟨hvalid, -⟩ := step_cases h
    rw [step_of_turn hvalid hsched] at h
    exact invocation_keeps_main (s := { s with sched := rest }) h

/-! ## Below the bound every turn goes on (R134) -/

theorem exec_next_below_bound {s : State} (hrx : ¬ s.wcBound .rx) (htx : ¬ s.wcBound .tx) (i : Instr) :
    ∃ t, exec i s = .next t := by
  refine exec_next_of_not_fault fun hfault => ?_
  rcases (faultsAreExactlyCursorOverflow.1 i s).1 hfault with ⟨-, -, hb⟩ | ⟨-, hb⟩
  · exact htx hb
  · exact hrx hb

theorem onNext_goes_on (f : State → State) {r : Result} (h : ∃ t, r = .next t) :
    ∃ t, onNext f r = .next t := by
  obtain ⟨t, rfl⟩ := h
  exact ⟨f t, rfl⟩

theorem mainTurn_goes_on {s : State} (hrx : ¬ s.wcBound .rx) (htx : ¬ s.wcBound .tx) :
    ∃ t, mainTurn s = .next t := by
  cases hprog : s.main.prog with
  | nil => exact ⟨s, by rw [mainTurn, hprog]⟩
  | cons item more =>
    cases hword : item.present with
    | none => exact ⟨_, by simp only [mainTurn, hprog, hword]; rfl⟩
    | some cw =>
      rw [mainTurn_of_present hprog hword]
      refine onNext_goes_on _ ?_
      cases hdec : decodeCommand cw with
      | instr i =>
        rw [runCommand_legal hdec]
        exact exec_next_below_bound hrx htx i
      | illegal why => exact ⟨_, runCommand_illegal hdec s⟩

/-- Settles O20: an instruction is all that can fault in a turn, and it does so at a bound alone. -/
theorem everyStepBelowTheBoundGoesOn : Obligations.EveryStepBelowTheBoundGoesOn := by
  intro s hvalid hrx htx
  have hinvocation : ∀ (ev : EventVec) (rest : List Turn),
      ∃ t, invocation ev { s with sched := rest } = .next t :=
    fun ev rest => onNext_goes_on _ (exec_next_below_bound (s := { s with sched := rest }) hrx htx _)
  cases hsched : s.sched with
  | nil => exact ⟨s, by rw [step, stepTurn, if_pos hvalid, hsched]⟩
  | cons tn rest =>
    rw [step_of_turn hvalid hsched]
    cases tn with
    | main => exact mainTurn_goes_on (s := { s with sched := rest }) hrx htx
    | event ev => exact hinvocation ev rest
    | fire =>
      rw [takeTurn, fireTurn]
      split
      · exact hinvocation _ rest
      · exact ⟨_, rfl⟩
    | arrive b => exact ⟨_, rfl⟩
    | txdone => exact ⟨_, rfl⟩

end Sys2Proof.Machine
end

section
/-! The two writes of a channel's record, and that an instruction does one of them at most (R83 to R85). -/

namespace Sys2Proof.Machine

/-! ## The record after a pop and after an insertion -/

/-- A channel after a pop, or an eviction: the read cursor advanced (R84). -/
def RingBuffer.popped (b : RingBuffer) : RingBuffer := ⟨b.storage, b.wc, b.rc + 1⟩

/-- A channel of capacity `c` after an insertion that evicts where it is full (R85). -/
def RingBuffer.inserted (c : Nat) (d : Byte) (b : RingBuffer) : RingBuffer :=
  ⟨b.storage.write (b.wc % c) d, b.wc + 1, if b.wc - b.rc = c then b.rc + 1 else b.rc⟩

theorem advanceRc_setBuf (ch : Channel) (s : State) : advanceRc ch s = s.setBuf ch (s.buf ch).popped := rfl

theorem evictIfFull_of_room (ch : Channel) (s : State) (hroom : rbIsFull ch s = false) :
    evictIfFull ch s = s := by
  rw [evictIfFull, hroom]
  rfl

theorem evictIfFull_of_full (ch : Channel) (s : State) (hfull : rbIsFull ch s = true) :
    evictIfFull ch s = advanceRc ch s := if_pos hfull

/-- The eviction and the insertion of R85 write the channel's record alone. -/
theorem insertEvict_setBuf (ch : Channel) (d : Byte) (s : State) :
    insertByte ch d (evictIfFull ch s) = s.setBuf ch ((s.buf ch).inserted (s.cfg.capacity ch) d) := by
  cases hf : rbIsFull ch s with
  | true =>
    have hlen := (rbIsFull_iff ch s).1 hf
    rw [evictIfFull_of_full ch s hf, insertByte_eq, RingBuffer.inserted, if_pos hlen]
    cases ch <;> rfl
  | false =>
    have hlen := mt (rbIsFull_iff ch s).2 (Bool.eq_false_iff.1 hf)
    rw [evictIfFull_of_room ch s hf, insertByte_eq, RingBuffer.inserted, if_neg hlen]
    rfl

/-- An insertion into a channel that is not full, in the same form (R83). -/
theorem insertByte_setBuf (ch : Channel) (d : Byte) (s : State) (hroom : rbIsFull ch s = false) :
    insertByte ch d s = s.setBuf ch ((s.buf ch).inserted (s.cfg.capacity ch) d) := by
  rw [← insertEvict_setBuf, evictIfFull_of_room ch s hroom]

/-! ## What an instruction does to a channel -/

/-- From `s` to `t` the channel stayed, was popped, or took a byte below its bound. -/
def ChannelStep (s t : State) (ch : Channel) : Prop :=
  t.buf ch = s.buf ch ∨
  ((s.buf ch).wc ≠ (s.buf ch).rc ∧ t.buf ch = (s.buf ch).popped) ∨
  ∃ d, wcAtBound ch s = false ∧ t.buf ch = (s.buf ch).inserted (s.cfg.capacity ch) d

/-- A byte for `TX` is stored at the slot of its write cursor, unless it is full (R101, R102). -/
theorem storesTo_of_txData {i : Instr} {d : Byte} {s : State} (hd : txData i = some d)
    (hroom : rbIsFull .tx s = false) : storesTo i s = some (.tx, s.slot .tx s.tx.wc) := by
  cases i with
  | txpush d | txw d => rw [storesTo, hroom, if_neg Bool.false_ne_true]
  | rxpop | rxpeek idx | empty ch | full ch | len ch | flagrd | flagclr => cases hd
  | irqNone | irqTx | irqRx d | irqRxTx d => cases hd

/-- An instruction that goes on leaves each channel, pops it, or stores a byte where `storesTo` says. -/
theorem exec_buf_cases {i : Instr} {s t : State} (h : exec i s = .next t) (ch : Channel) :
    t.buf ch = s.buf ch ∨
    ((s.buf ch).wc ≠ (s.buf ch).rc ∧ t.buf ch = (s.buf ch).popped) ∨
    ∃ d, wcAtBound ch s = false ∧ storesTo i s = some (ch, s.slot ch (s.buf ch).wc) ∧
      t.buf ch = (s.buf ch).inserted (s.cfg.capacity ch) d := by
  obtain ⟨-, -, htx, hrx⟩ := exec_effect h
  cases ch with
  | rx =>
    rcases hrx with ⟨he, -⟩ | ⟨-, hne, he, -⟩ | ⟨d, hi, hb, he, -⟩
    · exact .inl he
    · exact .inr (.inl ⟨hne, he⟩)
    · rw [insertEvict_setBuf] at he
      exact .inr (.inr ⟨d, hb, by rcases hi with rfl | rfl <;> rfl, he⟩)
  | tx =>
    rcases htx with ⟨he, -⟩ | ⟨d, hd, hf, hb, he, -⟩ | ⟨-, -, he, -⟩ | ⟨-, hne, he, -⟩
    · exact .inl he
    · rw [insertByte_setBuf .tx d s hf] at he
      exact .inr (.inr ⟨d, hb, storesTo_of_txData hd hf, he⟩)
    · exact .inl he
    · exact .inr (.inl ⟨hne, he⟩)

theorem exec_channelStep {i : Instr} {s t : State} (h : exec i s = .next t) (ch : Channel) :
    ChannelStep s t ch :=
  (exec_buf_cases h ch).imp_right (Or.imp_right fun ⟨d, hb, _, he⟩ => ⟨d, hb, he⟩)

/-- R31: no instruction writes the configuration, and the draw is plain data. -/
theorem exec_keeps_cfg {i : Instr} {s t : State} (h : exec i s = .next t) :
    t.cfg = s.cfg ∧ t.draw = s.draw := by
  obtain ⟨hcfg, hdraw, -⟩ := exec_effect h
  exact ⟨hcfg, hdraw⟩

/-- Settles O37: a byte reads the storage of its own channel, which is written at the slot `storesTo` names
or nowhere. -/
theorem onlyTheStoredSlotChanges : Obligations.OnlyTheStoredSlotChanges := by
  intro i s t h ch a hne
  obtain ⟨-, hdraw⟩ := exec_keeps_cfg h
  rcases exec_buf_cases h ch with he | ⟨-, he⟩ | ⟨d, -, hstore, he⟩
  · exact byteAt_congr hdraw (by rw [he]) a
  · exact byteAt_congr hdraw (by rw [he]; rfl) a
  · have ha : a ≠ (s.buf ch).wc % s.cfg.capacity ch := by
      rintro rfl
      exact hne hstore
    rw [State.byteAt, State.byteAt, he, hdraw]
    exact congrArg (Option.getD · _) (Memory.read_write_ne _ _ _ d ha)

/-! ## The invariants of one channel -/

theorem wcAtBound_evictIfFull (ch : Channel) (s : State) :
    wcAtBound ch (evictIfFull ch s) = wcAtBound ch s := by
  unfold evictIfFull
  split
  · simp [wcAtBound, advanceRc_eq]
  · rfl

/-- R89: a channel step keeps INV-RB. -/
theorem ringOk_of_channelStep {s t : State} {ch : Channel} (hvalid : s.cfg.valid = true)
    (hcfg : t.cfg = s.cfg) (hok : s.RingOk ch) (hstep : ChannelStep s t ch) : t.RingOk ch := by
  rcases hstep with he | ⟨hne, he⟩ | ⟨d, hb, he⟩
  · exact (ringOk_congr hcfg he).2 hok
  · refine (ringOk_congr (s := advanceRc ch s) ?_ ?_).2 (ringOk_advanceRc hok hne)
    · rw [hcfg, advanceRc_setBuf, setBuf_cfg]
    · rw [he, advanceRc_setBuf, buf_setBuf_same]
  · obtain ⟨hok', hroom⟩ := ringOk_evictIfFull hvalid hok
    have hcfg' : (evictIfFull ch s).cfg = s.cfg := by
      unfold evictIfFull
      split <;> simp [advanceRc_eq]
    refine (ringOk_congr (s := insertByte ch d (evictIfFull ch s)) ?_ ?_).2
      (ringOk_insertByte d (hcfg' ▸ hvalid) hok' hroom ((wcAtBound_evictIfFull ch s).trans hb))
    · rw [hcfg, insertEvict_setBuf, setBuf_cfg]
    · rw [he, insertEvict_setBuf, buf_setBuf_same]

/-- An instruction keeps the ring invariant of the state. -/
theorem exec_inv {i : Instr} {s t : State} (hinv : s.Inv) (h : exec i s = .next t) : t.Inv := by
  obtain ⟨hcfg, -⟩ := exec_keeps_cfg h
  have hok : ∀ ch, t.RingOk ch := fun ch =>
    ringOk_of_channelStep hinv.1 hcfg (hinv.ringOk ch) (exec_channelStep h ch)
  exact ⟨hcfg ▸ hinv.1, hok .rx, hok .tx⟩

/-- Every slot from the read cursor to the write cursor has been written (R51). -/
def RingBuffer.Written (c : Nat) (b : RingBuffer) : Prop :=
  ∀ i < b.wc - b.rc, (b.storage.read ((b.rc + i) % c)).isSome = true

theorem invWritten_iff (s : State) : s.InvWritten ↔ ∀ ch, (s.buf ch).Written (s.cfg.capacity ch) :=
  ⟨fun h ch => h ch (by cases ch <;> simp), fun h ch _ => h ch⟩

/-- A pop takes a slot out of the occupied region. -/
theorem written_popped {c : Nat} {b : RingBuffer} (h : b.Written c) : b.popped.Written c := by
  intro i hi
  have hi : i < b.wc - (b.rc + 1) := hi
  have := h (i + 1) (by omega)
  rwa [show b.rc + (i + 1) = b.rc + 1 + i by omega] at this

/-- An insertion adds the slot it writes to the occupied region, and no other. -/
theorem written_inserted {c : Nat} {b : RingBuffer} (d : Byte) (h : b.Written c) :
    (b.inserted c d).Written c := by
  intro i hi
  have hrc : b.rc ≤ (b.inserted c d).rc := by
    dsimp only [RingBuffer.inserted]
    split <;> omega
  generalize hp : (b.inserted c d).rc = p at hi hrc
  have hi : i < b.wc + 1 - p := hi
  change ((b.storage.write (b.wc % c) d).read ((p + i) % c)).isSome = true
  by_cases hslot : (p + i) % c = b.wc % c
  · rw [hslot, Memory.read_write_same]
    rfl
  · have hne : p + i ≠ b.wc := fun he => hslot (by rw [he])
    rw [Memory.read_write_ne _ _ _ _ hslot]
    have := h (p + i - b.rc) (by omega)
    rwa [show b.rc + (p + i - b.rc) = p + i by omega] at this

theorem written_of_channelStep {s t : State} {ch : Channel} (hcfg : t.cfg = s.cfg)
    (h : (s.buf ch).Written (s.cfg.capacity ch)) (hstep : ChannelStep s t ch) :
    (t.buf ch).Written (t.cfg.capacity ch) := by
  rw [hcfg]
  rcases hstep with he | ⟨-, he⟩ | ⟨d, -, he⟩ <;> rw [he]
  · exact h
  · exact written_popped h
  · exact written_inserted d h

end Sys2Proof.Machine
end

section
/-! What every step keeps: the cursors' rule (R89, R149), INV-RB (R22), INV-TXIE (R105), the written slots
(R51) and the meaning of `FLAG` (R117). -/

namespace Sys2Proof.Machine

/-- A step keeps the configuration and the draw, and does to each channel what one instruction may. -/
theorem step_channelStep {s t : State} (h : step s = .next t) :
    t.cfg = s.cfg ∧ t.draw = s.draw ∧ ∀ ch, ChannelStep s t ch := by
  obtain ⟨-, ⟨-, hblock⟩ | ⟨i, u, -, hexec, hblock⟩⟩ := step_cases h
  · exact ⟨hblock.1, hblock.2.1, fun ch => .inl (hblock.buf ch)⟩
  · obtain ⟨hcfg, hdraw⟩ := exec_keeps_cfg hexec
    refine ⟨hblock.1.trans hcfg, hblock.2.1.trans hdraw, fun ch => ?_⟩
    have hch : ChannelStep s u ch := by
      have := exec_channelStep hexec ch
      cases ch <;> exact this
    rwa [ChannelStep, hblock.buf ch]

/-- Settles O5: a channel step keeps INV-RB. -/
theorem everyStepKeepsTheRingInvariant : Obligations.EveryStepKeepsTheRingInvariant := by
  intro s t hinv h
  obtain ⟨hcfg, -, hstep⟩ := step_channelStep h
  have hok : ∀ ch, t.RingOk ch := fun ch => ringOk_of_channelStep hinv.1 hcfg (hinv.ringOk ch) (hstep ch)
  exact ⟨hcfg ▸ hinv.1, hok .rx, hok .tx⟩

/-- Settles O7: a channel step writes the slot it occupies. -/
theorem everyStepKeepsOccupiedSlotsWritten : Obligations.EveryStepKeepsOccupiedSlotsWritten := by
  intro s t _ hwritten h
  obtain ⟨hcfg, -, hstep⟩ := step_channelStep h
  rw [invWritten_iff] at hwritten ⊢
  exact fun ch => written_of_channelStep hcfg (hwritten ch) (hstep ch)

/-- Settles O9: a pop advances one cursor, an insertion the other, and its eviction the first. -/
theorem cursorsOnlyAdvanceByOne : Obligations.CursorsOnlyAdvanceByOne := by
  intro s t h
  obtain ⟨hcfg, -, hstep⟩ := step_channelStep h
  refine ⟨hcfg, fun ch => ?_⟩
  rcases hstep ch with he | ⟨-, he⟩ | ⟨d, -, he⟩ <;> rw [he]
  · exact ⟨.inl rfl, .inl rfl⟩
  · exact ⟨.inl rfl, .inr rfl⟩
  · refine ⟨.inr rfl, ?_⟩
    dsimp only [RingBuffer.inserted]
    split
    · exact .inr rfl
    · exact .inl rfl

/-- INV-TXIE over one instruction: an accepted byte sets the enable, and the TX branch clears it with the
last byte (R105). -/
theorem exec_invTxie {i : Instr} {s t : State} (hle : s.tx.rc ≤ s.tx.wc) (hie : s.InvTxie)
    (h : exec i s = .next t) : t.InvTxie := by
  obtain ⟨-, -, htx, -⟩ := exec_effect h
  unfold State.InvTxie at hie ⊢
  rcases htx with ⟨he, hen, -⟩ | ⟨d, -, -, -, he, hen⟩ | ⟨-, hempty, he, hen⟩ | ⟨-, hne, he, hen⟩
  · rw [he, hen]
    exact hie
  · rw [he, hen]
    simp [insertByte_eq]
    omega
  · rw [he, hen]
    simp [hempty]
  · rw [he, hen]
    by_cases hlast : s.tx.wc = s.tx.rc + 1
    · simp [hlast, advanceRc_eq]
    · rw [if_neg hlast]
      simp [hie, advanceRc_eq]
      omega

/-- Settles O6: by the instruction the step performs, if it performs one. -/
theorem everyStepKeepsTheEnableInvariant : Obligations.EveryStepKeepsTheEnableInvariant := by
  intro s t hinv hie h
  obtain ⟨-, -, hle, -⟩ := hinv
  have keep : ∀ {u : State}, u.InvTxie → BlockEq t u → t.InvTxie := by
    rintro u hu ⟨-, -, -, htx, -, hen⟩
    rwa [State.InvTxie, htx, hen]
  obtain ⟨-, ⟨-, hblock⟩ | ⟨i, u, -, hexec, hblock⟩⟩ := step_cases h
  · exact keep hie hblock
  · exact keep (exec_invTxie (s := { s with sched := s.sched.tail }) hle hie hexec) hblock

/-- R111, R115, R117: what an instruction makes of `FLAG`. -/
theorem exec_flag {i : Instr} {s t : State} (h : exec i s = .next t) :
    ((∃ d, i = .irqRx d ∨ i = .irqRxTx d) → t.flag = true) ∧ (i = .flagclr → t.flag = false) ∧
    ((∀ d, i ≠ .irqRx d ∧ i ≠ .irqRxTx d) → i ≠ .flagclr → t.flag = s.flag) := by
  obtain ⟨-, -, -, hrx⟩ := exec_effect h
  refine ⟨?_, ?_, ?_⟩
  · rintro ⟨d, hd⟩
    rcases hrx with ⟨-, -, hno⟩ | ⟨rfl, -⟩ | ⟨-, -, -, -, hset⟩
    · exact (hd.elim (hno d).1 (hno d).2).elim
    · simp at hd
    · exact hset
  · rintro rfl
    rw [exec_flagclr] at h
    cases h
    rfl
  · intro hno hclr
    rcases hrx with ⟨-, hkeep | ⟨hi, -⟩, -⟩ | ⟨-, -, -, hkeep⟩ | ⟨d, hd, -⟩
    · exact hkeep
    · exact absurd hi hclr
    · exact hkeep
    · exact (hd.elim (hno d).1 (hno d).2).elim

/-- Settles O47: by the instruction the step performs, if it performs one. -/
theorem flagRecordsReceiveSinceLastClear : Obligations.FlagRecordsReceiveSinceLastClear := by
  intro s t h
  obtain ⟨-, ⟨hnone, -, -, -, -, hflag, -⟩ | ⟨i, u, hsome, hexec, -, -, -, -, hflag, -⟩⟩ := step_cases h
  · simp [hnone, hflag]
  · obtain ⟨hset, hclr, hkeep⟩ := exec_flag hexec
    simp only [hsome, hflag, Option.some.injEq, ne_eq]
    exact ⟨hset, hclr, hkeep⟩

end Sys2Proof.Machine
end

section
/-! The draw of the unspecified reset bytes is not observable (R51, V1): every operation commutes with
changing it, because the bytes it reads have been written. -/

namespace Sys2Proof.Machine

/-- The same state with another draw of the reset bytes. -/
def setDraw (d : Nat) (s : State) : State := { s with draw := d }

/-! ## The block beside the draw -/

@[simp] theorem setDraw_buf (d : Nat) (s : State) (ch : Channel) : (setDraw d s).buf ch = s.buf ch := by
  cases ch <;> rfl

@[simp] theorem setDraw_setBuf (d : Nat) (s : State) (ch : Channel) (b : RingBuffer) :
    (setDraw d s).setBuf ch b = setDraw d (s.setBuf ch b) := by cases ch <;> rfl

@[simp] theorem setDraw_cfg (d : Nat) (s : State) : (setDraw d s).cfg = s.cfg := rfl

@[simp] theorem slot_setDraw (d : Nat) (s : State) (ch : Channel) (p : Nat) :
    (setDraw d s).slot ch p = s.slot ch p := rfl

@[simp] theorem rbLen_setDraw (d : Nat) (s : State) (ch : Channel) : rbLen ch (setDraw d s) = rbLen ch s := by
  simp only [rbLen, setDraw_buf]

@[simp] theorem rbIsEmpty_setDraw (d : Nat) (s : State) (ch : Channel) :
    rbIsEmpty ch (setDraw d s) = rbIsEmpty ch s := by simp only [rbIsEmpty, setDraw_buf]

@[simp] theorem rbIsFull_setDraw (d : Nat) (s : State) (ch : Channel) :
    rbIsFull ch (setDraw d s) = rbIsFull ch s := by simp only [rbIsFull, setDraw_buf, setDraw_cfg]

@[simp] theorem wcAtBound_setDraw (d : Nat) (s : State) (ch : Channel) :
    wcAtBound ch (setDraw d s) = wcAtBound ch s := by simp only [wcAtBound, setDraw_buf, setDraw_cfg]

@[simp] theorem insertByte_setDraw (d : Nat) (ch : Channel) (b : Byte) (s : State) :
    insertByte ch b (setDraw d s) = setDraw d (insertByte ch b s) := by
  simp only [insertByte_eq, setDraw_buf, slot_setDraw, setDraw_setBuf]

@[simp] theorem advanceRc_setDraw (d : Nat) (ch : Channel) (s : State) :
    advanceRc ch (setDraw d s) = setDraw d (advanceRc ch s) := by
  simp only [advanceRc_eq, setDraw_buf, setDraw_setBuf]

@[simp] theorem evictIfFull_setDraw (d : Nat) (ch : Channel) (s : State) :
    evictIfFull ch (setDraw d s) = setDraw d (evictIfFull ch s) := by
  simp only [evictIfFull, rbIsFull_setDraw, advanceRc_setDraw]
  split <;> rfl

/-! ## The bytes of the occupied region -/

/-- A byte of the occupied region has been written, so it is the same for every draw. -/
theorem byteAt_setDraw {s : State} {ch : Channel} (hw : (s.buf ch).Written (s.cfg.capacity ch)) {i : Nat}
    (hi : i < rbLen ch s) (d : Nat) :
    (setDraw d s).byteAt ch (s.slot ch ((s.buf ch).rc + i)) =
      s.byteAt ch (s.slot ch ((s.buf ch).rc + i)) := by
  obtain ⟨b, hb⟩ := Option.isSome_iff_exists.1 (hw i hi)
  have hb : (s.buf ch).storage.read (s.slot ch ((s.buf ch).rc + i)) = some b := hb
  rw [State.byteAt, State.byteAt, setDraw_buf, hb]
  rfl

/-! ## The primitives -/

theorem rbPush_setDraw (d : Nat) (ch : Channel) (b : Byte) (s : State) :
    rbPush ch b (setDraw d s) = (rbPush ch b s).map (setDraw d) := by
  simp only [rbPush, rbIsFull_setDraw, wcAtBound_setDraw, insertByte_setDraw]
  split_ifs <;> rfl

theorem rbPop_setDraw {s : State} {ch : Channel} (hle : (s.buf ch).rc ≤ (s.buf ch).wc)
    (hw : (s.buf ch).Written (s.cfg.capacity ch)) (d : Nat) :
    rbPop ch (setDraw d s) = (rbPop ch s).map (Prod.map id (setDraw d)) := by
  by_cases hempty : (s.buf ch).wc = (s.buf ch).rc
  · rw [rbPop_of_empty ch s hempty, rbPop_of_empty ch (setDraw d s) (by simpa using hempty)]
    rfl
  · have hlen : 0 < rbLen ch s := by
      rw [rbLen]
      omega
    have hbyte := byteAt_setDraw hw hlen d
    rw [Nat.add_zero] at hbyte
    rw [rbPop_of_nonempty ch s hempty, rbPop_of_nonempty ch (setDraw d s) (by simpa using hempty),
      setDraw_buf, slot_setDraw, hbyte, advanceRc_setDraw]
    rfl

theorem rbPeek_setDraw {s : State} {ch : Channel} (hw : (s.buf ch).Written (s.cfg.capacity ch)) (i d : Nat) :
    rbPeek ch i (setDraw d s) = rbPeek ch i s := by
  simp only [rbPeek, rbLen_setDraw, setDraw_buf, slot_setDraw]
  split
  · rfl
  · rw [byteAt_setDraw hw (by omega)]

/-! ## The two halves of an invocation -/

theorem rxPart_setDraw (d : Nat) (rx : Option Byte) (s : State) :
    rxPart rx (setDraw d s) = (rxPart rx s).map (setDraw d) := by
  cases rx with
  | none => rfl
  | some b =>
    simp only [rxPart, rxBranch, rbPushDropOldest, wcAtBound_setDraw, evictIfFull_setDraw, insertByte_setDraw]
    cases wcAtBound .rx s <;> rfl

theorem txPart_setDraw {s : State} (hle : s.tx.rc ≤ s.tx.wc) (hw : s.tx.Written s.cfg.cTx) (tr : Bool)
    (d : Nat) : txPart tr (setDraw d s) = Prod.map (setDraw d) id (txPart tr s) := by
  have hpop : rbPop .tx (setDraw d s) = (rbPop .tx s).map (Prod.map id (setDraw d)) :=
    rbPop_setDraw (ch := .tx) hle hw d
  cases tr with
  | false => rfl
  | true =>
    simp only [txPart, txBranch, hpop, if_true]
    cases rbPop .tx s with
    | none => rfl
    | some r =>
      simp only [Option.map_some, Prod.map, id, rbIsEmpty_setDraw]
      cases rbIsEmpty .tx r.2 <;> rfl

/-- The RX half leaves the transmit channel and the configuration. -/
theorem rxPart_keeps_tx {rx : Option Byte} {s s1 : State} (h : rxPart rx s = some s1) :
    s1.tx = s.tx ∧ s1.cfg = s.cfg := by
  rcases rxPart_cases rx s with ⟨-, e⟩ | ⟨b, -, -, e⟩ | ⟨b, -, -, e⟩ <;> rw [e] at h <;> cases h
  · exact ⟨rfl, rfl⟩
  · simp only [insertEvict_setBuf, setFlag_tx, setFlag_cfg, setBuf_rx_tx, setBuf_cfg, and_self]

theorem takeInterrupt_setDraw {s : State} (hle : s.tx.rc ≤ s.tx.wc) (hw : s.tx.Written s.cfg.cTx)
    (rx : Option Byte) (tr : Bool) (d : Nat) :
    takeInterrupt rx tr (setDraw d s) = onNext (setDraw d) (takeInterrupt rx tr s) := by
  rw [takeInterrupt, takeInterrupt, rxPart_setDraw]
  cases hrx : rxPart rx s with
  | none => rfl
  | some s1 =>
    obtain ⟨htx, hcfg⟩ := rxPart_keeps_tx hrx
    simp only [Option.map_some, txPart_setDraw (by rwa [htx]) (by rwa [htx, hcfg])]
    rfl

/-! ## Every instruction -/

theorem exec_setDraw {s : State} (hinv : s.Inv) (hwritten : s.InvWritten) (i : Instr) (d : Nat) :
    exec i (setDraw d s) = onNext (setDraw d) (exec i s) := by
  rw [invWritten_iff] at hwritten
  have hinterrupt := takeInterrupt_setDraw (hinv.ringOk .tx).1 (hwritten .tx) (d := d)
  cases i with
  | txpush b =>
    simp only [exec, execTxpush, rbPush_setDraw]
    cases rbPush .tx b s <;> rfl
  | txw b =>
    simp only [exec, execTxw, rbPush_setDraw]
    cases rbPush .tx b s <;> rfl
  | rxpop =>
    simp only [exec, execRxpop, rbPop_setDraw (hinv.ringOk .rx).1 (hwritten .rx)]
    cases rbPop .rx s <;> rfl
  | rxpeek idx =>
    simp only [exec, execRxpeek, rbPeek_setDraw (hwritten .rx)]
    cases rbPeek .rx idx s <;> rfl
  | empty ch => simp only [exec, execEmpty, rbIsEmpty_setDraw]; rfl
  | full ch => simp only [exec, execFull, rbIsFull_setDraw]; rfl
  | len ch => simp only [exec, execLen, rbLen_setDraw]; rfl
  | flagrd | flagclr => rfl
  | irqNone => exact hinterrupt none false
  | irqTx => exact hinterrupt none true
  | irqRx b => exact hinterrupt (some b) false
  | irqRxTx b => exact hinterrupt (some b) true

/-! ## Every turn -/

theorem onNext_comm {f g : State → State} (h : ∀ s, f (g s) = g (f s)) (r : Result) :
    onNext f (onNext g r) = onNext g (onNext f r) := by
  cases r with
  | next s => exact congrArg Host.Outcome.next (h s)
  | fault r | refused r => rfl

theorem deliver_setDraw (item : MainItem) (more : List MainItem) (d : Nat) (s : State) :
    deliver item more (setDraw d s) = setDraw d (deliver item more s) := by
  obtain ⟨_, _, _, _, _, _, _ | rw, _, _, _, _⟩ := s <;> rfl

theorem reactUart_setDraw (d : Nat) (s : State) : reactUart (setDraw d s) = setDraw d (reactUart s) := by
  obtain ⟨_, _, _, _, _, _, _, _ | o, _, _, _⟩ := s <;> rfl

theorem mainTurn_setDraw {s : State} (hinv : s.Inv) (hwritten : s.InvWritten) (d : Nat) :
    mainTurn (setDraw d s) = onNext (setDraw d) (mainTurn s) := by
  cases hprog : s.main.prog with
  | nil =>
    have hprog' : (setDraw d s).main.prog = [] := hprog
    simp only [mainTurn, hprog, hprog', onNext]
  | cons item more =>
    have hprog' : (setDraw d s).main.prog = item :: more := hprog
    cases hword : item.present with
    | none =>
      simp only [mainTurn, hprog, hprog', hword]
      rfl
    | some cw =>
      have hrun : runCommand cw (setDraw d s) = onNext (setDraw d) (runCommand cw s) := by
        cases hdec : decodeCommand cw with
        | instr i => rw [runCommand_legal hdec, runCommand_legal hdec, exec_setDraw hinv hwritten]
        | illegal why => rw [runCommand_illegal hdec, runCommand_illegal hdec]; rfl
      rw [mainTurn_of_present hprog hword, mainTurn_of_present hprog' hword, hrun]
      exact onNext_comm (deliver_setDraw item more d) _

theorem invocation_setDraw {s : State} (hinv : s.Inv) (hwritten : s.InvWritten) (ev : EventVec) (d : Nat) :
    invocation ev (setDraw d s) = onNext (setDraw d) (invocation ev s) := by
  rw [invocation, invocation, exec_setDraw hinv hwritten]
  exact onNext_comm (reactUart_setDraw d) _

theorem takeTurn_setDraw {s : State} (hinv : s.Inv) (hwritten : s.InvWritten) (tn : Turn) (d : Nat) :
    takeTurn tn (setDraw d s) = onNext (setDraw d) (takeTurn tn s) := by
  cases tn with
  | main => exact mainTurn_setDraw hinv hwritten d
  | event ev => exact invocation_setDraw hinv hwritten ev d
  | fire =>
    have hfire := invocation_setDraw hinv hwritten s.uart.vector d
    change (if s.uart.mayFire s.txie then invocation s.uart.vector (setDraw d s) else .next (setDraw d s)) =
      onNext (setDraw d) (if s.uart.mayFire s.txie then invocation s.uart.vector s else .next s)
    split
    · exact hfire
    · rfl
  | arrive b | txdone => rfl

/-- Settles O8: each turn commutes with changing the draw, by the bytes it reads having been written. -/
theorem unspecifiedResetBytesAreNeverObserved : Obligations.UnspecifiedResetBytesAreNeverObserved := by
  intro s d hinv hwritten
  change stepTurn (setDraw d s) = onNext (setDraw d) (stepTurn s)
  have hsched : (setDraw d s).sched = s.sched := rfl
  rw [stepTurn, stepTurn, hsched, setDraw_cfg, if_pos hinv.1, if_pos hinv.1]
  cases s.sched with
  | nil => rfl
  | cons tn rest => exact takeTurn_setDraw (s := { s with sched := rest }) hinv hwritten tn d

end Sys2Proof.Machine
end

section
/-! The contents of a channel under a pop and an insertion (R23, R84, R85, R91). -/

namespace Sys2Proof.Machine

/-! ## The last entries of a list -/

theorem lastN_of_length_le {c : Nat} {bs : List Byte} (h : bs.length ≤ c) : lastN c bs = bs := by
  rw [lastN, Nat.sub_eq_zero_of_le h, List.drop_zero]

/-- One entry too many is the oldest one. -/
theorem lastN_cons {c : Nat} {bs : List Byte} (b : Byte) (h : bs.length = c) : lastN c (b :: bs) = bs := by
  rw [lastN, List.length_cons, h, Nat.add_sub_cancel_left, List.drop_one, List.tail_cons]

/-- Keeping the last entries of a prefix first loses nothing that is kept in the end. -/
theorem lastN_lastN_append (c : Nat) (as bs : List Byte) :
    lastN c (lastN c as ++ bs) = lastN c (as ++ bs) := by
  rcases Nat.le_total as.length c with h | h
  · rw [lastN_of_length_le h]
  · have hlen : (lastN c as).length = c := by
      rw [lastN, List.length_drop]
      omega
    have hdrop : lastN c as ++ bs = (as ++ bs).drop (as.length - c) :=
      (List.drop_append_of_le_length (by omega)).symm
    rw [lastN, List.length_append, hlen, hdrop, List.drop_drop, lastN, List.length_append]
    congr 1
    omega

/-! ## Contents -/

/-- Contents are read position by position from the oldest (R23, R86). -/
theorem getElem?_contents (s : State) (ch : Channel) (i : Nat) : (s.contents ch)[i]? =
    if i < (s.buf ch).wc - (s.buf ch).rc then some (s.byteAt ch (s.slot ch ((s.buf ch).rc + i)))
    else none := by
  by_cases hi : i < (s.buf ch).wc - (s.buf ch).rc
  · simp [State.contents, rbLen, hi]
  · simp [State.contents, rbLen, hi]

theorem contents_of_empty {s : State} {ch : Channel} (h : (s.buf ch).wc = (s.buf ch).rc) :
    s.contents ch = [] := by
  rw [State.contents, rbLen, h, Nat.sub_self, List.range_zero, List.map_nil]

/-- A pop removes the first entry (R84). -/
theorem contents_of_popped {s t : State} {ch : Channel} (hcfg : t.cfg = s.cfg) (hdraw : t.draw = s.draw)
    (hlt : (s.buf ch).rc < (s.buf ch).wc) (he : t.buf ch = (s.buf ch).popped) :
    s.contents ch = s.byteAt ch (s.slot ch (s.buf ch).rc) :: t.contents ch := by
  have ht : t.contents ch = (advanceRc ch s).contents ch := by
    refine contents_congr ?_ ?_ ?_
    · rw [hcfg, advanceRc_setBuf, setBuf_cfg]
    · rw [hdraw, advanceRc_setBuf, setBuf_draw]
    · rw [he, advanceRc_setBuf, buf_setBuf_same]
  rw [ht]
  exact contents_advanceRc hlt

/-- An insertion appends its byte and keeps the last `C` entries: what it evicts is the oldest one (R91). -/
theorem contents_insertEvict {s : State} {ch : Channel} (hvalid : s.cfg.valid = true) (hok : s.RingOk ch)
    (d : Byte) : (insertByte ch d (evictIfFull ch s)).contents ch =
      lastN (s.cfg.capacity ch) (s.contents ch ++ [d]) := by
  obtain ⟨hok', hroom⟩ := ringOk_evictIfFull hvalid hok
  rw [contents_insertByte d hok' hroom]
  have hlen : (s.contents ch).length = (s.buf ch).wc - (s.buf ch).rc := contents_length s ch
  cases hf : rbIsFull ch s with
  | true =>
    have hfull := (rbIsFull_iff ch s).1 hf
    have hpos := valid_capacity_pos hvalid ch
    have hcons := contents_advanceRc (s := s) (ch := ch) (by omega)
    rw [hcons, List.length_cons] at hlen
    rw [evictIfFull_of_full ch s hf, hcons, List.cons_append, lastN_cons]
    rw [List.length_append, List.length_singleton]
    omega
  | false =>
    have hne := mt (rbIsFull_iff ch s).2 (Bool.eq_false_iff.1 hf)
    obtain ⟨-, hcap, -⟩ := hok
    rw [evictIfFull_of_room ch s hf, lastN_of_length_le]
    rw [List.length_append, List.length_singleton]
    omega

theorem contents_of_inserted {s t : State} {ch : Channel} {d : Byte} (hvalid : s.cfg.valid = true)
    (hok : s.RingOk ch) (hcfg : t.cfg = s.cfg) (hdraw : t.draw = s.draw)
    (he : t.buf ch = (s.buf ch).inserted (s.cfg.capacity ch) d) :
    t.contents ch = lastN (s.cfg.capacity ch) (s.contents ch ++ [d]) := by
  rw [← contents_insertEvict hvalid hok d, insertEvict_setBuf]
  refine contents_congr ?_ ?_ ?_
  · rw [hcfg, setBuf_cfg]
  · rw [hdraw, setBuf_draw]
  · rw [he, buf_setBuf_same]

/-! ## The reads of `RX` (R84, R86) -/

/-- R86: a peek answers the entry of the contents at its index. -/
theorem exec_rxpeek_contents (idx : Nat) (s : State) : exec (.rxpeek idx) s = .next
    { s with rw := some (match (s.contents .rx)[idx]? with
      | some b => b.setWidth 32
      | none => 0x20000000#32) } := by
  rw [getElem?_contents, buf_rx]
  rcases Nat.lt_or_ge idx (s.rx.wc - s.rx.rc) with hin | hpast
  · rw [exec_rxpeek_of_lt_length hin, if_pos hin]
    rfl
  · rw [exec_rxpeek_of_length_le hpast, if_neg (Nat.not_lt.2 hpast)]

/-- R84: a pop answers the first entry of the contents and leaves the others, touching `RX` and the
response alone. -/
theorem exec_rxpop_contents {s : State} (hle : s.rx.rc ≤ s.rx.wc) :
    ∃ t, exec .rxpop s = .next t ∧
      t.rw = some (match (s.contents .rx).head? with
        | some b => b.setWidth 32
        | none => 0x20000000#32) ∧
      t.contents .rx = (s.contents .rx).tail ∧ t = { s with rx := t.rx, rw := t.rw } ∧ t.rx.wc = s.rx.wc := by
  rcases hle.eq_or_lt with hempty | hlt
  · have hnil : s.contents .rx = [] := contents_of_empty hempty.symm
    refine ⟨_, exec_rxpop_of_empty hempty.symm, ?_, ?_, rfl, rfl⟩
    · rw [hnil]
      rfl
    · rw [hnil]
      exact contents_of_empty hempty.symm
  · refine ⟨_, exec_rxpop_of_nonempty hlt.ne', ?_, ?_, rfl, rfl⟩
    · rw [contents_advanceRc (ch := .rx) hlt]
      rfl
    · rw [contents_advanceRc (ch := .rx) hlt]
      rfl

/-- Settles O49: the two reads in terms of the contents. -/
theorem peekAndPopReadTheContentsInOrder : Obligations.PeekAndPopReadTheContentsInOrder := by
  intro s hinv
  obtain ⟨t, hexec, hrw, hcontents, -⟩ := exec_rxpop_contents (hinv.ringOk .rx).1
  exact ⟨fun idx => exec_rxpeek_contents idx s, t, hexec, hrw, hcontents⟩

end Sys2Proof.Machine
end

section
/-! Invocations in closed form: `IRQ.RXTX` and the order of its branches (R138, R139), and the newest
received byte (R120). -/

namespace Sys2Proof.Machine

theorem wcAtBound_eq_false {s : State} {ch : Channel} (h : ¬ s.wcBound ch) : wcAtBound ch s = false :=
  Bool.eq_false_iff.2 (mt (wcAtBound_iff ch s).1 h)

/-- The whole state an invocation leaves where its RX half, if it runs, is below the bound (R138). -/
theorem takeInterrupt_eq {rx : Option Byte} {s : State} (h : rx.isSome = true → wcAtBound .rx s = false)
    (tr : Bool) : takeInterrupt rx tr s = .next { s with
      rx := rx.elim s.rx fun d => s.rx.inserted s.cfg.cRx d,
      flag := if rx.isSome then true else s.flag,
      tx := if tr = true ∧ s.tx.wc ≠ s.tx.rc then s.tx.popped else s.tx,
      txie := if tr = true ∧ (s.tx.wc = s.tx.rc ∨ s.tx.wc = s.tx.rc + 1) then false else s.txie,
      out := some (outVector rx.isSome
        (if tr = true ∧ s.tx.wc ≠ s.tx.rc then some (s.byteAt .tx (s.tx.rc % s.cfg.cTx)) else none)) } := by
  obtain ⟨t, hexec, ht, -, hrx⟩ := takeInterrupt_ok rx tr s h
  have hrx : t.rx = rx.elim s.rx fun d => s.rx.inserted s.cfg.cRx d := by
    cases rx with
    | none =>
      rw [ht]
      rfl
    | some d =>
      rw [hrx d rfl, insertEvict_setBuf]
      rfl
  have hfield := (congrArg State.rx ht).symm.trans hrx
  dsimp only at hfield
  rw [hexec, ht, hfield]
  rfl

/-- R111: `IRQ.RX` below the bound. -/
theorem exec_irqRx_eq {s : State} (hbelow : ¬ s.wcBound .rx) (d : Byte) : exec (.irqRx d) s =
    .next { s with rx := s.rx.inserted s.cfg.cRx d, flag := true, out := some 0x200#10 } := by
  rw [← outVector_read]
  exact takeInterrupt_eq (rx := some d) (fun _ => wcAtBound_eq_false hbelow) false

/-- A read and a write (R64). -/
theorem outVector_readWrite (b : Byte) : outVector true (some b) = 0b11#2 ++ b :=
  congrArg (· ++ b) (by decide : BitVec.ofBool true ++ BitVec.ofBool true = 0b11#2)

/-- R138: `IRQ.RXTX` on an empty `TX` is `IRQ.RX` with the source disabled. -/
theorem exec_irqRxTx_of_empty {s : State} (hbelow : ¬ s.wcBound .rx) (hempty : s.tx.wc = s.tx.rc) (d : Byte) :
    exec (.irqRxTx d) s = .next
      { s with rx := s.rx.inserted s.cfg.cRx d, flag := true, txie := false, out := some 0x200#10 } := by
  refine (takeInterrupt_eq (rx := some d) (fun _ => wcAtBound_eq_false hbelow) true).trans ?_
  simp [hempty, outVector_read]

/-- R138: `IRQ.RXTX` on a `TX` that holds a byte reads one and writes one. -/
theorem exec_irqRxTx_of_nonempty {s : State} (hbelow : ¬ s.wcBound .rx) (hne : s.tx.wc ≠ s.tx.rc) (d : Byte) :
    exec (.irqRxTx d) s = .next
      { s with rx := s.rx.inserted s.cfg.cRx d, flag := true, tx := s.tx.popped,
               txie := if s.tx.wc = s.tx.rc + 1 then false else s.txie,
               out := some (0b11#2 ++ s.byteAt .tx (s.tx.rc % s.cfg.cTx)) } := by
  refine (takeInterrupt_eq (rx := some d) (fun _ => wcAtBound_eq_false hbelow) true).trans ?_
  simp [hne, outVector_readWrite]

/-- Settles O35: the shared operation with both halves on. -/
theorem irqRxTxDoesBothBranches : Obligations.IrqRxTxDoesBothBranches := by
  intro d s
  refine ⟨fun hbound => (takeInterrupt_fault_iff (some d) true s .cursorOverflow).2
    ⟨rfl, (wcAtBound_iff .rx s).2 hbound⟩, fun hbelow => ?_⟩
  obtain ⟨t, hexec, ht, hbyte, -⟩ := takeInterrupt_ok (some d) true s fun _ => wcAtBound_eq_false hbelow
  refine ⟨t, hexec, ht.trans ?_, hbyte⟩
  by_cases hempty : s.tx.wc = s.tx.rc
  · simp [hempty, outVector_read]
  · simp [hempty, outVector_readWrite]

/-- The write of one half joined with the read of the other (R64). -/
theorem read_or_write : ∀ b : Byte, 0x200#10 ||| (0b01#2 ++ b) = 0b11#2 ++ b := by decide

/-- Settles O36: the two branches write different fields and neither writes what the other tests, so the
closed forms agree but for `OUT`. -/
theorem branchOrderIsNotObservable : Obligations.BranchOrderIsNotObservable := by
  intro d s t1 t2 u1 u2 hrx hrxtx htx htxrx
  have hbelow : ¬ s.wcBound .rx := fun hb => nomatch (exec_irqRx_of_bound hb d).symm.trans hrx
  rw [exec_irqRx_eq hbelow] at hrx
  cases hrx
  by_cases hempty : s.tx.wc = s.tx.rc
  · rw [exec_irqTx_of_empty hempty] at htx
    cases htx
    cases hrxtx.symm.trans (exec_irqTx_of_empty hempty)
    rw [exec_irqRx_eq (by exact hbelow)] at htxrx
    cases htxrx
    exact ⟨_, _, _, exec_irqRxTx_of_empty hbelow hempty d, rfl, rfl, rfl, rfl⟩
  · rw [exec_irqTx_of_nonempty hempty] at htx
    cases htx
    cases hrxtx.symm.trans (exec_irqTx_of_nonempty hempty)
    rw [exec_irqRx_eq (by exact hbelow)] at htxrx
    cases htxrx
    refine ⟨_, _, _, exec_irqRxTx_of_nonempty hbelow hempty d, rfl, rfl, ?_, ?_⟩
    · rw [← read_or_write]
      rfl
    · rw [← read_or_write]
      rfl

end Sys2Proof.Machine
end

section
/-! Receptions: the newest byte (R120), the drop-oldest law (R91), the serial orders of a pop and a reception
(R167), and the FIFO law of `RX` (R90). -/

namespace Sys2Proof.Machine

/-! ## One reception -/

/-- Settles O48: the byte is stored at the old write position, which is the newest position afterwards. -/
theorem newestReceivedByteIsInTheChannel : Obligations.NewestReceivedByteIsInTheChannel := by
  intro d s t hinv h
  obtain ⟨tr, h⟩ : ∃ tr, takeInterrupt (some d) tr s = .next t := h.elim (⟨false, ·⟩) (⟨true, ·⟩)
  obtain ⟨t', h', ht, hbyte, -⟩ := takeInterrupt_ok (some d) tr s (takeInterrupt_next_bound h)
  rw [h] at h'
  cases h'
  have hcfg : t.cfg = s.cfg := by rw [ht]
  have hwc : t.rx.wc = s.rx.wc + 1 := by
    rw [ht]
    rfl
  have hrc : t.rx.rc = if s.rx.wc - s.rx.rc = s.cfg.cRx then s.rx.rc + 1 else s.rx.rc := by
    rw [ht]
    rfl
  have hlen : 1 ≤ t.rx.wc - t.rx.rc := by
    obtain ⟨hle, -⟩ := hinv.ringOk .rx
    have hle : s.rx.rc ≤ s.rx.wc := hle
    have hpos : 0 < s.cfg.cRx := valid_capacity_pos hinv.1 .rx
    rw [hwc, hrc]
    split <;> omega
  have hnewest : t.byteAt .rx ((t.rx.wc - 1) % t.cfg.cRx) = d := by
    rw [hbyte, hwc, hcfg, Nat.add_sub_cancel]
    simp
  refine ⟨hlen, hnewest, ?_⟩
  rw [exec_rxpeek_of_lt_length (by omega), show t.rx.rc + (t.rx.wc - t.rx.rc - 1) = t.rx.wc - 1 by omega,
    hnewest]

/-- The state `IRQ.RX` leaves below the bound. -/
def afterRx (d : Byte) (s : State) : State :=
  { s with rx := s.rx.inserted s.cfg.cRx d, flag := true, out := some 0x200#10 }

theorem exec_irqRx_afterRx {s : State} (hbelow : ¬ s.wcBound .rx) (d : Byte) :
    exec (.irqRx d) s = .next (afterRx d s) := exec_irqRx_eq hbelow d

/-- A reception appends its byte, and drops the oldest where there is no room (R91). -/
theorem contents_afterRx {s : State} (hinv : s.Inv) (d : Byte) :
    (afterRx d s).contents .rx = lastN s.cfg.cRx (s.contents .rx ++ [d]) :=
  contents_of_inserted hinv.1 (hinv.ringOk .rx) rfl rfl rfl

theorem contents_length_le {s : State} (hinv : s.Inv) (ch : Channel) :
    (s.contents ch).length ≤ s.cfg.capacity ch := by
  rw [contents_length]
  exact (hinv.ringOk ch).2.1

/-- Settles O50: a pop takes the head, a reception appends; on a full channel the reception evicts the head
itself. -/
theorem popAndEvictingReceptionAreSerial : Obligations.PopAndEvictingReceptionAreSerial := by
  intro d b rest s hinv hbelow hfull hcontents
  obtain ⟨hle, -⟩ := hinv.ringOk .rx
  have hlen : (b :: rest).length = s.cfg.cRx := by
    rw [← hcontents, contents_length]
    exact hfull
  have hroom : (rest ++ [d]).length = s.cfg.cRx := by simpa using hlen
  refine ⟨?_, ?_⟩
  · obtain ⟨t, hpop, hrw, htail, ht, hwc⟩ := exec_rxpop_contents hle
    have hcfg : t.cfg = s.cfg := by rw [ht]
    have hbelow' : ¬ t.wcBound .rx := by rwa [State.wcBound, buf_rx, hwc, hcfg]
    refine ⟨t, afterRx d t, hpop, exec_irqRx_afterRx hbelow' d, ?_, ?_⟩
    · rw [hcontents] at hrw
      exact hrw
    · rw [contents_afterRx (exec_inv hinv hpop), htail, hcontents, hcfg, List.tail_cons,
        lastN_of_length_le hroom.le]
  · have hrecv := exec_irqRx_afterRx hbelow d
    have hinv' := exec_inv hinv hrecv
    have hafter : (afterRx d s).contents .rx = rest ++ [d] := by
      rw [contents_afterRx hinv, hcontents, List.cons_append, lastN_cons b hroom]
    obtain ⟨u, hpop, hrw, htail, -⟩ := exec_rxpop_contents (hinv'.ringOk .rx).1
    obtain ⟨c, rest', hsplit⟩ : ∃ c rest', rest ++ [d] = c :: rest' := List.exists_cons_of_ne_nil (by simp)
    rw [hafter, hsplit] at hrw htail
    exact ⟨afterRx d s, u, c, rest', hrecv, hpop, hsplit, hrw, htail⟩

/-! ## Room below the bound (R172) -/

theorem not_wcBound_of_room {s : State} {ch : Channel} {n : Nat} (h : s.room ch (n + 1)) :
    ¬ s.wcBound ch := by
  rintro ⟨w, hw, hbound⟩
  have := h w hw
  omega

/-- One insertion takes one place of the room. -/
theorem room_of_inserted {s t : State} {ch : Channel} {n : Nat} (h : s.room ch (n + 1)) (hcfg : t.cfg = s.cfg)
    (hwc : (t.buf ch).wc = (s.buf ch).wc + 1) : t.room ch n := by
  intro w hw
  have := h w (hcfg ▸ hw)
  omega

/-! ## Receptions in a row -/

/-- R91: after any receptions `RX` holds the last bytes of what it held and received. -/
theorem runAll_irqRx (bs : List Byte) {s : State} (hinv : s.Inv) (hroom : s.room .rx bs.length) :
    ∃ t, runAll (bs.map .irqRx) s = .next t ∧ t.Inv ∧
      t.contents .rx = lastN s.cfg.cRx (s.contents .rx ++ bs) ∧ t.rx.wc = s.rx.wc + bs.length := by
  induction bs generalizing s with
  | nil =>
    refine ⟨s, rfl, hinv, ?_, rfl⟩
    rw [List.append_nil]
    exact (lastN_of_length_le (contents_length_le hinv .rx)).symm
  | cons b bs ih =>
    have hrecv := exec_irqRx_afterRx (not_wcBound_of_room hroom) b
    have hinv' := exec_inv hinv hrecv
    obtain ⟨t, hrun, ht, hcontents, hwc⟩ := ih hinv' (room_of_inserted hroom rfl rfl)
    refine ⟨t, ?_, ht, ?_, ?_⟩
    · rw [List.map_cons, runAll, hrecv]
      exact hrun
    · rw [hcontents, contents_afterRx hinv, show (afterRx b s).cfg = s.cfg from rfl, lastN_lastN_append,
        List.append_assoc, List.singleton_append]
    · have hwc' : (afterRx b s).rx.wc = s.rx.wc + 1 := rfl
      rw [hwc, hwc', List.length_cons]
      omega

/-- Settles O45: the contents by `runAll_irqRx`, and the read cursor from their number. -/
theorem receiveChannelDropsTheOldest : Obligations.ReceiveChannelDropsTheOldest := by
  intro s bs hinv hroom
  obtain ⟨t, hrun, ht, hcontents, hwc⟩ := runAll_irqRx bs hinv hroom
  refine ⟨t, hrun, hcontents, hwc, fun hnew => ?_⟩
  obtain ⟨hle, -⟩ := hinv.ringOk .rx
  obtain ⟨hle', -⟩ := ht.ringOk .rx
  rw [buf_rx] at hle hle'
  have hnil : s.contents .rx = [] := contents_of_empty (ch := .rx) (by rw [buf_rx]; omega)
  have hlen := congrArg List.length hcontents
  rw [contents_length, rbLen, buf_rx, hnil, List.nil_append, lastN, List.length_drop] at hlen
  omega

/-- `n` pops of a channel that holds `n` bytes answer them in order; one more answers `NOVALUE`. -/
theorem poppedBy_contents (n : Nat) {s : State} (hle : s.rx.rc ≤ s.rx.wc)
    (hlen : (s.contents .rx).length = n) :
    poppedBy (n + 1) s = (s.contents .rx).map (fun b => b.setWidth 32) ++ [0x20000000#32] := by
  have hlen' : s.rx.wc - s.rx.rc = n := (contents_length s .rx).symm.trans hlen
  induction n generalizing s with
  | zero =>
    rw [List.length_eq_zero_iff.1 hlen, poppedBy, exec_rxpop_of_empty (by omega)]
    rfl
  | succ n ih =>
    have hlt : s.rx.rc < s.rx.wc := by omega
    have hpop := exec_rxpop_of_nonempty hlt.ne'
    have hcons := contents_of_popped (ch := .rx) (s := s)
      (t := { s with rx := s.rx.popped, rw := some ((s.byteAt .rx (s.rx.rc % s.cfg.cRx)).setWidth 32) })
      rfl rfl hlt rfl
    rw [hcons, List.length_cons] at hlen
    rw [poppedBy, hpop, hcons, List.map_cons, List.cons_append]
    refine congrArg (_ :: ·) (ih (s := { s with rx := s.rx.popped, rw := _ }) ?_ (by omega) ?_)
    · exact hlt
    · change s.rx.wc - (s.rx.rc + 1) = n
      omega

/-- Settles O44: with room for them the receptions drop nothing, and the pops take the contents in order. -/
theorem receiveChannelIsFifo : Obligations.ReceiveChannelIsFifo := by
  intro s bs hinv hfits hroom
  obtain ⟨t, hrun, ht, hcontents, -⟩ := runAll_irqRx bs hinv hroom
  have hlen : (s.contents .rx).length = s.rx.wc - s.rx.rc := contents_length s .rx
  rw [lastN_of_length_le (by rw [List.length_append, hlen]; exact hfits)] at hcontents
  refine ⟨t, hrun, ?_⟩
  rw [← hcontents]
  refine poppedBy_contents _ (ht.ringOk .rx).1 ?_
  rw [hcontents, List.length_append]

end Sys2Proof.Machine
end

section
/-! The FIFO laws of `TX` (R90) and of the primitives (R83 to R85, R90). -/

namespace Sys2Proof.Machine

/-! ## Accepted bytes -/

theorem exec_txpush_of_room {s : State} (hroom : s.tx.wc - s.tx.rc ≠ s.cfg.cTx) (hbelow : ¬ s.wcBound .tx)
    (d : Byte) : exec (.txpush d) s = .next (acceptTx d s) := by
  have hpush : rbPush .tx d s = .ok (insertByte .tx d s) := rbPush_of_room .tx s hroom hbelow d
  simp only [exec, execTxpush, hpush, acceptTx]

/-- An accepted byte stands behind what `TX` held (R90). -/
theorem contents_acceptTx {s : State} (hok : s.RingOk .tx) (hroom : s.tx.wc - s.tx.rc ≠ s.cfg.cTx)
    (d : Byte) : (acceptTx d s).contents .tx = s.contents .tx ++ [d] := by
  rw [← contents_insertByte d hok (Bool.eq_false_iff.2 (mt (rbIsFull_iff .tx s).1 hroom))]
  exact contents_congr rfl rfl rfl

/-- R90: bytes pushed in order, with room for them, stand behind what `TX` held. -/
theorem runAll_txpush (bs : List Byte) {s : State} (hinv : s.Inv)
    (hfits : (s.contents .tx).length + bs.length ≤ s.cfg.cTx) (hroom : s.room .tx bs.length) :
    ∃ t, runAll (bs.map .txpush) s = .next t ∧ t.Inv ∧ t.contents .tx = s.contents .tx ++ bs := by
  induction bs generalizing s with
  | nil => exact ⟨s, rfl, hinv, (List.append_nil _).symm⟩
  | cons b bs ih =>
    rw [List.length_cons] at hfits
    have hlen : (s.contents .tx).length = s.tx.wc - s.tx.rc := contents_length s .tx
    have hne : s.tx.wc - s.tx.rc ≠ s.cfg.cTx := by omega
    have hpush := exec_txpush_of_room hne (not_wcBound_of_room hroom) b
    have hcontents := contents_acceptTx (hinv.ringOk .tx) hne b
    have hfits' : ((acceptTx b s).contents .tx).length + bs.length ≤ s.cfg.cTx := by
      rw [hcontents, List.length_append, List.length_singleton]
      omega
    obtain ⟨t, hrun, ht, htc⟩ := ih (exec_inv hinv hpush) hfits' (room_of_inserted hroom rfl rfl)
    refine ⟨t, ?_, ht, ?_⟩
    · rw [List.map_cons, runAll, hpush]
      exact hrun
    · rw [htc, hcontents, List.append_assoc, List.singleton_append]

/-! ## Transmitted bytes -/

/-- The fields of an output vector with a write (R64). -/
theorem outWr_write (b : Byte) : outWr (0b01#2 ++ b) = true ∧ outWdata (0b01#2 ++ b) = b := by
  obtain ⟨-, hwr, hdata⟩ := outVector_fields false (some b)
  rw [← outVector_write]
  exact ⟨hwr, hdata⟩

/-- As many transmit-ready invocations as `TX` holds bytes hand them over in order (R103). -/
theorem sentBy_contents (n : Nat) {s : State} (hlen : (s.contents .tx).length = n) :
    sentBy n s = s.contents .tx := by
  have hlen' : s.tx.wc - s.tx.rc = n := (contents_length s .tx).symm.trans hlen
  induction n generalizing s with
  | zero => rw [List.length_eq_zero_iff.1 hlen, sentBy]
  | succ n ih =>
    have hlt : s.tx.rc < s.tx.wc := by omega
    obtain ⟨t, ht, hsend⟩ : ∃ t, t = _ ∧ exec .irqTx s = .next t := ⟨_, rfl, exec_irqTx_of_nonempty hlt.ne'⟩
    have hcons := contents_of_popped (ch := .tx) (s := s) (t := t) (by rw [ht]) (by rw [ht]) hlt
      (by rw [ht]; rfl)
    rw [hcons, List.length_cons] at hlen
    have hout : t.out = some (0b01#2 ++ s.byteAt .tx (s.tx.rc % s.cfg.cTx)) := by rw [ht]
    obtain ⟨hwr, hdata⟩ := outWr_write (s.byteAt .tx (s.tx.rc % s.cfg.cTx))
    simp only [sentBy, hsend, hout, hwr, hdata, if_true]
    rw [ih (s := t) (by omega) (by rw [ht]; dsimp only; omega), hcons]
    rfl

/-- Settles O43: the pushes append in order, and the invocations send the contents in order. -/
theorem transmitChannelIsFifo : Obligations.TransmitChannelIsFifo := by
  intro s bs hinv hfits hroom
  have hlen : (s.contents .tx).length = s.tx.wc - s.tx.rc := contents_length s .tx
  obtain ⟨t, hrun, -, hcontents⟩ := runAll_txpush bs hinv (by omega) hroom
  refine ⟨t, hrun, ?_⟩
  rw [← hcontents]
  refine sentBy_contents _ ?_
  rw [hcontents, List.length_append]

/-! ## The primitives, with either policy -/

/-- A successful insertion of either policy is one channel step: the byte inserted below the bound. -/
theorem insertWith_ok {ch : Channel} {p : Policy} {b : Byte} {s t : State} (h : insertWith ch p b s = .ok t) :
    wcAtBound ch s = false ∧ t = s.setBuf ch ((s.buf ch).inserted (s.cfg.capacity ch) b) := by
  cases p with
  | rejecting =>
    rcases rbPush_cases ch b s with ⟨-, e⟩ | ⟨-, -, e⟩ | ⟨hf, hb, e⟩ <;> rw [insertWith, e] at h <;> cases h
    exact ⟨hb, insertByte_setBuf ch b s hf⟩
  | dropOldest =>
    rcases rbPushDropOldest_cases ch b s with ⟨-, e⟩ | ⟨hb, e⟩ <;> rw [insertWith, e] at h <;> cases h
    exact ⟨hb, insertEvict_setBuf ch b s⟩

/-- With room and below the bound both policies insert, and neither evicts. -/
theorem insertWith_of_room {ch : Channel} {s : State}
    (hroom : (s.buf ch).wc - (s.buf ch).rc ≠ s.cfg.capacity ch) (hbelow : ¬ s.wcBound ch) (p : Policy)
    (b : Byte) : insertWith ch p b s = .ok (insertByte ch b s) := by
  cases p with
  | rejecting => exact rbPush_of_room ch s hroom hbelow b
  | dropOldest =>
    have hf : rbIsFull ch s = false := Bool.eq_false_iff.2 (mt (rbIsFull_iff ch s).1 hroom)
    rw [insertWith, rbPushDropOldest, wcAtBound_eq_false hbelow, evictIfFull_of_room ch s hf]
    rfl

/-- What an insertion keeps: the configuration and the invariant of the channel; and it never moves the read
cursor back. -/
theorem insertWith_keeps {ch : Channel} {p : Policy} {b : Byte} {s t : State} (hvalid : s.cfg.valid = true)
    (hok : s.RingOk ch) (h : insertWith ch p b s = .ok t) :
    t.cfg = s.cfg ∧ t.RingOk ch ∧ (s.buf ch).rc ≤ (t.buf ch).rc := by
  obtain ⟨hb, rfl⟩ := insertWith_ok h
  refine ⟨setBuf_cfg _ _ _, ?_, ?_⟩
  · exact ringOk_of_channelStep hvalid (setBuf_cfg _ _ _) hok (.inr (.inr ⟨b, hb, buf_setBuf_same _ _ _⟩))
  · rw [buf_setBuf_same, RingBuffer.inserted]
    split
    · exact Nat.le_succ _
    · exact le_refl _

/-- An insertion that leaves the read cursor evicted nothing and appended its byte. -/
theorem contents_insertWith {ch : Channel} {p : Policy} {b : Byte} {s t : State} (hok : s.RingOk ch)
    (h : insertWith ch p b s = .ok t) (hrc : (t.buf ch).rc = (s.buf ch).rc) :
    t.contents ch = s.contents ch ++ [b] := by
  obtain ⟨-, rfl⟩ := insertWith_ok h
  have hroom : rbIsFull ch s = false := by
    rw [Bool.eq_false_iff]
    intro hf
    rw [buf_setBuf_same, RingBuffer.inserted, if_pos ((rbIsFull_iff ch s).1 hf)] at hrc
    exact absurd hrc (Nat.succ_ne_self _)
  rw [← insertByte_setBuf ch b s hroom]
  exact contents_insertByte b hok hroom

/-- Successful insertions never move the read cursor back; where they leave it, they appended their bytes. -/
theorem insertAll_contents {ch : Channel} (ps : List (Policy × Byte)) {s t : State}
    (hvalid : s.cfg.valid = true) (hok : s.RingOk ch) (h : insertAll ch ps s = some t) :
    t.RingOk ch ∧ (s.buf ch).rc ≤ (t.buf ch).rc ∧
      ((t.buf ch).rc = (s.buf ch).rc → t.contents ch = s.contents ch ++ ps.map Prod.snd) := by
  induction ps generalizing s with
  | nil =>
    cases h
    exact ⟨hok, le_refl _, fun _ => (List.append_nil _).symm⟩
  | cons pb ps ih =>
    obtain ⟨p, b⟩ := pb
    rw [insertAll] at h
    cases hins : insertWith ch p b s with
    | overflow | cursorOverflow =>
      rw [hins] at h
      cases h
    | ok s' =>
      rw [hins] at h
      obtain ⟨hcfg, hok', hrc⟩ := insertWith_keeps hvalid hok hins
      obtain ⟨ht, hrc', hcontents⟩ := ih (hcfg ▸ hvalid) hok' h
      refine ⟨ht, hrc.trans hrc', fun hsame => ?_⟩
      rw [hcontents (by omega), contents_insertWith hok hins (by omega), List.append_assoc,
        List.singleton_append, List.map_cons]

/-- With room for them and below the bound all insertions are successful, and none evicts. -/
theorem insertAll_of_room {ch : Channel} (ps : List (Policy × Byte)) {s : State} (hvalid : s.cfg.valid = true)
    (hok : s.RingOk ch) (hfits : (s.buf ch).wc - (s.buf ch).rc + ps.length ≤ s.cfg.capacity ch)
    (hroom : s.room ch ps.length) : ∃ t, insertAll ch ps s = some t ∧ (t.buf ch).rc = (s.buf ch).rc := by
  induction ps generalizing s with
  | nil => exact ⟨s, rfl, rfl⟩
  | cons pb ps ih =>
    obtain ⟨p, b⟩ := pb
    rw [List.length_cons] at hfits
    have hins := insertWith_of_room (by omega) (not_wcBound_of_room hroom) p b
    obtain ⟨hcfg, hok', -⟩ := insertWith_keeps hvalid hok hins
    have hwc : ((insertByte ch b s).buf ch).wc = (s.buf ch).wc + 1 := by
      rw [insertByte_eq, buf_setBuf_same]
    have hrc : ((insertByte ch b s).buf ch).rc = (s.buf ch).rc := by rw [insertByte_eq, buf_setBuf_same]
    obtain ⟨t, hall, ht⟩ := ih (hcfg ▸ hvalid) hok' (by rw [hcfg, hwc, hrc]; omega)
      (room_of_inserted hroom hcfg hwc)
    exact ⟨t, by rw [insertAll, hins]; exact hall, ht.trans hrc⟩

/-- Pops in a row return the contents in order, and then no value (R84). -/
theorem popAll_contents {ch : Channel} (n : Nat) {s : State} (hle : (s.buf ch).rc ≤ (s.buf ch).wc)
    (hlen : (s.contents ch).length ≤ n) : popAll ch n s = s.contents ch := by
  induction n generalizing s with
  | zero => rw [List.length_eq_zero_iff.1 (Nat.le_zero.1 hlen), popAll]
  | succ n ih =>
    rcases hle.eq_or_lt with hempty | hlt
    · rw [popAll, rbPop_of_empty ch s hempty.symm, contents_of_empty hempty.symm]
    · have hcons := contents_advanceRc hlt
      rw [hcons, List.length_cons] at hlen
      rw [popAll, rbPop_of_nonempty ch s hlt.ne', hcons]
      refine congrArg (_ :: ·) (ih ?_ (by omega))
      rw [advanceRc_setBuf, buf_setBuf_same]
      exact hlt

/-- Settles O56: the insertions appended their bytes, and the pops take the contents in order. -/
theorem ringBufferIsFifo : Obligations.RingBufferIsFifo := by
  intro s ch ps hinv
  have hok := hinv.ringOk ch
  refine ⟨fun t hall hrc n hn => ?_, fun hfits hroom => ?_⟩
  · obtain ⟨ht, -, hcontents⟩ := insertAll_contents ps hinv.1 hok hall
    have hcontents := hcontents hrc
    rw [popAll_contents n ht.1 (by rw [hcontents, List.length_append, List.length_map]; exact hn), hcontents]
  · rw [contents_length] at hfits
    exact insertAll_of_room ps hinv.1 hok hfits hroom

end Sys2Proof.Machine
end

section
/-! No transmit byte is lost: each step moves bytes from `TX` to the line, or accepts them behind what `TX`
holds (R107). -/

namespace Sys2Proof.Machine

/-! ## One instruction -/

/-- A command leaves in `TX` what it held, followed by the byte it accepted. -/
theorem exec_command_contents_tx {i : Instr} (hi : i.isCommand = true) {s t : State} (hok : s.RingOk .tx)
    (h : exec i s = .next t) :
    t.contents .tx = s.contents .tx ++ (if rbIsFull .tx s then [] else (txData i).toList) := by
  rcases exec_command_cases i hi s t h with
    ⟨hx, rw, rfl⟩ | ⟨d, hd, hf, -, rfl⟩ | ⟨rfl, -, rw, rfl⟩ | ⟨rfl, rw, rfl⟩
  · rcases hx with hf | hnone
    · rw [if_pos hf, List.append_nil]
      exact contents_congr rfl rfl rfl
    · rw [hnone, Option.toList_none, ite_self, List.append_nil]
      exact contents_congr rfl rfl rfl
  · have hdata : txData i = some d := by rcases hd with rfl | rfl <;> rfl
    rw [hdata, hf, if_neg Bool.false_ne_true, Option.toList_some, ← contents_insertByte d hok hf]
    exact contents_congr rfl rfl rfl
  · simp only [txData, Option.toList_none, ite_self, List.append_nil]
    exact contents_congr rfl rfl rfl
  · simp only [txData, Option.toList_none, ite_self, List.append_nil]
    exact contents_congr rfl rfl rfl

/-- No invocation accepts a byte for transmission. -/
theorem txData_of_event {i : Instr} (hi : i.isCommand = false) : txData i = none := by
  cases i with
  | txpush d | txw d => cases hi
  | rxpop | rxpeek idx | empty ch | full ch | len ch | flagrd | flagclr => rfl
  | irqNone | irqTx | irqRx d | irqRxTx d => rfl

/-- R146: the line grows by the byte written, if one is. -/
theorem line_react_outVector (rd : Bool) (w : Option Byte) (u : Uart) :
    (u.react (outVector rd w)).line = u.line ++ w.toList := by
  obtain ⟨-, hwr, hdata⟩ := outVector_fields rd w
  rw [react_eq, hwr, hdata]
  cases w <;> simp

/-- An invocation moves the head of `TX` to the line, or leaves both. -/
theorem react_conserves_tx {ev : EventVec} {s u : State} (hle : s.tx.rc ≤ s.tx.wc)
    (h : exec (decodeEvent ev) s = .next u) :
    (reactUart u).uart.line ++ (reactUart u).contents .tx = s.uart.line ++ s.contents .tx := by
  have hu := exec_event_next h
  have huart : u.uart = s.uart := by rw [hu]
  have hout : u.out = some (outVector (evRxFull ev) (if evTxReady ev = true ∧ s.tx.wc ≠ s.tx.rc then
      some (s.byteAt .tx (s.tx.rc % s.cfg.cTx)) else none)) := by rw [hu]
  have htx : u.tx = if evTxReady ev = true ∧ s.tx.wc ≠ s.tx.rc then s.tx.popped else s.tx := by
    rw [hu]
    rfl
  obtain ⟨hcfg, hdraw⟩ := exec_keeps_cfg h
  rw [(react_block u).contents, reactUart_of_out hout, huart, line_react_outVector]
  by_cases hsend : evTxReady ev = true ∧ s.tx.wc ≠ s.tx.rc
  · rw [if_pos hsend] at htx ⊢
    have hlt : s.tx.rc < s.tx.wc := by omega
    rw [contents_of_popped (ch := .tx) hcfg hdraw hlt htx, Option.toList_some, List.append_assoc]
    rfl
  · rw [if_neg hsend] at htx ⊢
    rw [Option.toList_none, List.append_nil, contents_congr (ch := .tx) hcfg hdraw htx]

/-! ## One step -/

theorem deliver_uart (item : MainItem) (more : List MainItem) (s : State) :
    (deliver item more s).uart = s.uart := by
  unfold deliver
  split <;> rfl

/-- MAIN does not touch the UART. -/
theorem mainTurn_uart {s t : State} (h : mainTurn s = .next t) : t.uart = s.uart := by
  cases hprog : s.main.prog with
  | nil =>
    rw [mainTurn, hprog] at h
    cases h
    rfl
  | cons item more =>
    cases hword : item.present with
    | none =>
      simp only [mainTurn, hprog, hword] at h
      cases h
      rfl
    | some cw =>
      rw [mainTurn_of_present hprog hword] at h
      obtain ⟨u, hrun, rfl⟩ := onNext_next h
      rw [deliver_uart]
      cases hdec : decodeCommand cw with
      | instr i =>
        rw [runCommand_legal hdec] at hrun
        obtain ⟨⟨-, -, -, huart, -⟩, -⟩ := exec_command_frame (isCommand_of_decodeCommand hdec) hrun
        exact huart
      | illegal why =>
        rw [runCommand_illegal hdec] at hrun
        cases hrun
        rfl

/-- On MAIN's turn the instruction performed, if there is one, is a command. -/
theorem isCommand_of_performs_main {s : State} {rest : List Turn} (hsched : s.sched = .main :: rest)
    {i : Instr} (h : s.performs = some i) : i.isCommand = true := by
  simp only [State.performs, hsched] at h
  split at h
  · split at h
    · cases h
      exact isCommand_of_decodeCommand ‹_›
    · cases h
  · cases h

/-- A step is an invocation with its reaction, or it leaves the line and performs a command at most. -/
theorem step_line_cases {s t : State} (h : step s = .next t) :
    (∃ ev u, s.performs = some (decodeEvent ev) ∧
      exec (decodeEvent ev) { s with sched := s.sched.tail } = .next u ∧ t = reactUart u) ∨
    (t.uart.line = s.uart.line ∧ ∀ i, s.performs = some i → i.isCommand = true) := by
  obtain ⟨hvalid, -⟩ := step_cases h
  cases hsched : s.sched with
  | nil =>
    rw [step, stepTurn, if_pos hvalid, hsched] at h
    cases h
    exact .inr ⟨rfl, by simp [State.performs, hsched]⟩
  | cons tn rest =>
    rw [step_of_turn hvalid hsched] at h
    cases tn with
    | main =>
      have huart : t.uart = s.uart := mainTurn_uart (s := { s with sched := rest }) h
      exact .inr ⟨by rw [huart], fun _ => isCommand_of_performs_main hsched⟩
    | event ev =>
      obtain ⟨u, hexec, ht⟩ := onNext_next h
      exact .inl ⟨ev, u, by simp [State.performs, hsched], hexec, ht⟩
    | fire =>
      simp only [State.performs, hsched]
      rw [takeTurn, fireTurn] at h
      by_cases hfire : s.uart.mayFire s.txie = true
      · rw [if_pos hfire] at h
        obtain ⟨u, hexec, ht⟩ := onNext_next h
        exact .inl ⟨s.uart.vector, u, if_pos hfire, hexec, ht⟩
      · rw [if_neg hfire] at h
        cases h
        exact .inr ⟨rfl, by simp [hfire]⟩
    | arrive b =>
      cases h
      refine .inr ⟨?_, by simp [State.performs, hsched]⟩
      dsimp only [Uart.arrive]
      split <;> rfl
    | txdone =>
      cases h
      exact .inr ⟨rfl, by simp [State.performs, hsched]⟩

/-- R107 over one step: the line followed by `TX` grows by the byte accepted, if one is. -/
theorem step_conserves_tx {s t : State} (hinv : s.Inv) (h : step s = .next t) :
    t.uart.line ++ t.contents .tx = s.uart.line ++ s.contents .tx ++ s.accepts := by
  have hok := hinv.ringOk .tx
  rcases step_line_cases h with ⟨ev, u, hperf, hexec, rfl⟩ | ⟨hline, hcommand⟩
  · rw [react_conserves_tx (s := { s with sched := s.sched.tail }) hok.1 hexec, State.accepts, hperf,
      Option.bind_some, txData_of_event (isCommand_decodeEvent ev), Option.toList_none, ite_self,
      List.append_nil]
    rfl
  · rw [hline, List.append_assoc]
    obtain ⟨-, ⟨hperf, hblock⟩ | ⟨i, u, hperf, hexec, hblock⟩⟩ := step_cases h
    · rw [hblock.contents, State.accepts, hperf, Option.bind_none, Option.toList_none, ite_self,
        List.append_nil]
    · rw [hblock.contents, exec_command_contents_tx (s := { s with sched := s.sched.tail })
        (hcommand i hperf) hok hexec, State.accepts, hperf, Option.bind_some]
      rfl

/-- Settles O46: by induction on the run, each step conserving the line followed by `TX`. -/
theorem noTransmitByteIsLost : Obligations.NoTransmitByteIsLost := by
  intro n
  induction n with
  | zero =>
    intro s t _ hrun
    cases hrun
    exact (List.append_nil _).symm
  | succ n ih =>
    intro s t hinv hrun
    obtain ⟨u, hstep, hrest⟩ := run_inv hrun
    rw [ih u t (everyStepKeepsTheRingInvariant s u hinv hstep) hrest, step_conserves_tx hinv hstep,
      acceptedBy, hstep, List.append_assoc]

end Sys2Proof.Machine
end

section
/-! What MAIN has observed survives invocations (R168), and a held `TXW` is accepted after one (R102, R143). -/

namespace Sys2Proof.Machine

/-! ## Any invocations -/

/-- What an invocation cannot undo: bytes in `RX`, room in `TX`, and the write cursor of `TX`. -/
structure ObservedBy (s t : State) : Prop where
  cfg : t.cfg = s.cfg
  rxLength : s.rx.wc - s.rx.rc ≤ t.rx.wc - t.rx.rc
  txWc : t.tx.wc = s.tx.wc
  txRc : s.tx.rc ≤ t.tx.rc

theorem ObservedBy.refl (s : State) : ObservedBy s s := ⟨rfl, le_refl _, rfl, le_refl _⟩

theorem ObservedBy.trans {s t u : State} (h : ObservedBy s t) (h' : ObservedBy t u) : ObservedBy s u :=
  ⟨h'.cfg.trans h.cfg, h.rxLength.trans h'.rxLength, h'.txWc.trans h.txWc, h.txRc.trans h'.txRc⟩

/-- One invocation: the RX branch evicts only where it inserts, and the TX branch only removes. -/
theorem observedBy_exec_event {e : Instr} (he : e.isCommand = false) {s t : State} (h : exec e s = .next t) :
    ObservedBy s t := by
  obtain ⟨ev, rfl⟩ := exists_decodeEvent he
  rw [exec_event_next h]
  refine ⟨rfl, ?_, ?_, ?_⟩
  · dsimp only
    split
    · dsimp only
      split <;> omega
    · exact le_refl _
  · dsimp only
    split <;> rfl
  · dsimp only
    split
    · exact Nat.le_succ _
    · exact le_refl _

theorem observedBy_runAll {es : List Instr} {s t : State} (hes : ∀ e ∈ es, e.isCommand = false)
    (hinv : s.Inv) (h : runAll es s = .next t) : ObservedBy s t ∧ t.Inv := by
  induction es generalizing s with
  | nil =>
    cases h
    exact ⟨.refl _, hinv⟩
  | cons e es ih =>
    obtain ⟨he, hes⟩ := List.forall_mem_cons.1 hes
    rw [runAll] at h
    cases hexec : exec e s with
    | next u =>
      rw [hexec] at h
      obtain ⟨hobs, ht⟩ := ih hes (exec_inv hinv hexec) h
      exact ⟨(observedBy_exec_event he hexec).trans hobs, ht⟩
    | fault r | refused r =>
      rw [hexec] at h
      cases h

/-- Settles O51: each observation is about what no invocation undoes. -/
theorem observationsSurviveInvocations : Obligations.ObservationsSurviveInvocations := by
  intro es s t hinv hes hrun
  obtain ⟨hobs, ht⟩ := observedBy_runAll hes hinv hrun
  obtain ⟨hcfg, hrx, hwc, hrc⟩ := hobs
  have hle : s.rx.rc ≤ s.rx.wc := (hinv.ringOk .rx).1
  have hcap : s.tx.wc - s.tx.rc ≤ s.cfg.cTx := (hinv.ringOk .tx).2.1
  have hle' : t.tx.rc ≤ t.tx.wc := (ht.ringOk .tx).1
  refine ⟨fun hne => ?_, fun idx hidx => ?_, fun hroom hbelow d => ?_, fun hempty => by omega, by omega⟩
  · exact ⟨_, _, exec_rxpop_of_nonempty (by omega), rfl⟩
  · exact ⟨_, _, exec_rxpeek_of_lt_length (hidx.trans_le hrx), rfl⟩
  · have hbelow' : ¬ t.wcBound .tx := by rwa [State.wcBound, buf_tx, hwc, hcfg]
    exact ⟨acceptTx d t, exec_txpush_of_room (by rw [hcfg]; omega) hbelow' d, rfl⟩

/-! ## The event that a held `TXW` waits for -/

/-- An invocation with `tx_ready` on a `TX` that holds a byte removes the head. -/
theorem exec_event_contents_tx {ev : EventVec} {s t : State} (hready : evTxReady ev = true)
    (hlt : s.tx.rc < s.tx.wc) (h : exec (decodeEvent ev) s = .next t) :
    t.tx = s.tx.popped ∧ t.contents .tx = (s.contents .tx).tail := by
  obtain ⟨hcfg, hdraw⟩ := exec_keeps_cfg h
  have htx : t.tx = s.tx.popped := by
    rw [exec_event_next h]
    exact if_pos ⟨hready, hlt.ne'⟩
  exact ⟨htx, by rw [contents_of_popped (ch := .tx) hcfg hdraw hlt htx, List.tail_cons]⟩

/-- A legal `TXW` with room below the bound is accepted in MAIN's turn, and MAIN goes on. -/
theorem step_txw_of_room {s : State} {rest : List Turn} {d : Byte} {cw : Word} {more : List MainItem}
    (hinv : s.Inv) (hroom : s.tx.wc - s.tx.rc ≠ s.cfg.cTx) (hbelow : ¬ s.wcBound .tx)
    (hsched : s.sched = .main :: rest) (hprog : s.main.prog = .word cw :: more)
    (hdec : decodeCommand cw = .instr (.txw d)) :
    ∃ t, step s = .next t ∧ t.main.prog = more ∧ t.rw = some 0x00000000#32 ∧
      t.contents .tx = s.contents .tx ++ [d] := by
  obtain ⟨hlegal, -⟩ := stepPerformsThePresentedCommand s rest _ more cw hinv.1 hsched hprog rfl
  have hexec : exec (.txw d) { s with sched := rest } = .next (acceptTx d { s with sched := rest }) :=
    (exec_txw_eq_txpush (s := { s with sched := rest }) hroom d).trans
      (exec_txpush_of_room (s := { s with sched := rest }) hroom hbelow d)
  refine ⟨_, (hlegal _ hdec).trans (by rw [hexec]; rfl), rfl, rfl, ?_⟩
  rw [(deliver_block _ _ _).contents,
    contents_acceptTx (s := { s with sched := rest }) (hinv.ringOk .tx) hroom d]
  rfl

theorem reactUart_sched (s : State) : (reactUart s).sched = s.sched := by
  unfold reactUart
  split <;> rfl

/-- Settles O53: `TX` being full, INV-TXIE lets the idle environment fire; its invocation sends the head, and
the `TXW` then finds room. -/
theorem heldTxwIsAcceptedAfterOneTransmitEvent : Obligations.HeldTxwIsAcceptedAfterOneTransmitEvent := by
  intro s rest d cw more hinv hie hrx htx hfull hidle hsched hprog hdec
  have hpos : 0 < s.cfg.cTx := valid_capacity_pos hinv.1 .tx
  have hlt : s.tx.rc < s.tx.wc := by omega
  have hfire : s.uart.mayFire s.txie = true := (mayFire_iff _ _).2 (.inr ⟨hidle, hie.2 hlt⟩)
  have hready : evTxReady s.uart.vector = true := by
    rw [Uart.vector, evTxReady_eventVector, Uart.txPending, hidle]
    rfl
  obtain ⟨u, hexec⟩ := exec_next_below_bound (s := { s with sched := .main :: rest }) hrx htx
    (decodeEvent s.uart.vector)
  have hstep : step s = .next (reactUart u) := by
    rw [step_of_turn hinv.1 hsched, takeTurn,
      fireTurn_of_mayFire (s := { s with sched := .main :: rest }) hfire, hexec]
    rfl
  obtain ⟨htxu, hcontents⟩ := exec_event_contents_tx (s := { s with sched := .main :: rest }) hready hlt hexec
  obtain ⟨⟨hcfg, -, hmain, -, hschedu⟩, -⟩ := exec_event_frame (isCommand_decodeEvent _) hexec
  obtain ⟨hcfg', -, -, htx', -⟩ := react_block u
  have hroom : (reactUart u).tx.wc - (reactUart u).tx.rc ≠ (reactUart u).cfg.cTx := by
    rw [htx', htxu, hcfg', hcfg]
    change s.tx.wc - (s.tx.rc + 1) ≠ s.cfg.cTx
    omega
  have hbelow : ¬ (reactUart u).wcBound .tx := by
    rw [State.wcBound, buf_tx, htx', htxu, hcfg', hcfg]
    exact htx
  obtain ⟨t, hstep', hmore, hrw, htc⟩ := step_txw_of_room (everyStepKeepsTheRingInvariant s _ hinv hstep)
    hroom hbelow ((reactUart_sched u).trans hschedu) (((congrArg _ (reactUart_main u)).trans
      (congrArg _ hmain)).trans hprog) hdec
  refine ⟨t, ?_, hmore, hrw, ?_⟩
  · rw [run_next hstep, run_next hstep']
    rfl
  · rw [htc, (react_block u).contents, hcontents]
    rfl

end Sys2Proof.Machine
end

section
/-! Two pseudo-instructions of MAIN, run with no invocation inside: `DRAIN` (R71) and `HIST` (R119). -/

namespace Sys2Proof.Machine

/-! ## One command of a pseudo-instruction -/

/-- A well-formed command has a word, which decodes to it. -/
theorem commandOf_eq_some {i : Instr} (hi : i.isCommand = true) (hwf : i.wellFormed = true) :
    ∃ cw, commandOf i = some cw ∧ decodeCommand cw = .instr i := by
  have hdec := decodeUndoesEncode i hwf
  cases henc : encode i with
  | m cw =>
    rw [henc] at hdec
    exact ⟨cw, by rw [commandOf, henc], hdec⟩
  | i ev =>
    rw [henc] at hdec
    rw [← Decoded.instr.inj hdec, isCommand_decodeEvent] at hi
    cases hi

/-- MAIN's turn with an item that presents a command: MAIN hears its answer and goes on as the item says. -/
theorem step_of_item {s u : State} {rest : List Turn} {item : MainItem} {more : List MainItem} {i : Instr}
    {rw : Word} (hvalid : s.cfg.valid = true) (hsched : s.sched = .main :: rest)
    (hprog : s.main.prog = item :: more) (hi : i.isCommand = true) (hwf : i.wellFormed = true)
    (hpresent : item.present = commandOf i) (hexec : exec i { s with sched := rest } = .next u)
    (hrw : u.rw = some rw) :
    step s = .next { u with main := ⟨item.after rw ++ more, s.main.heard ++ [rw],
      s.main.emitted ++ item.emits rw⟩ } := by
  obtain ⟨cw, hcw, hdec⟩ := commandOf_eq_some hi hwf
  obtain ⟨hlegal, -⟩ := stepPerformsThePresentedCommand s rest item more cw hvalid hsched hprog
    (hpresent.trans hcw)
  obtain ⟨⟨-, -, hmain, -⟩, -⟩ := exec_command_frame hi hexec
  rw [hlegal i hdec, hexec, onNext, deliver, hrw]
  simp only [hmain]

/-! ## The byte in a response (R62) -/

theorem rwStatus_byte (b : Byte) : rwStatus (b.setWidth 32) = Status.ok.code := by
  rw [← responseWord_byte]
  exact (responseWord_fields .ok (byteValue b)).2.1

theorem setWidth_rwValue_byte (b : Byte) : (rwValue (b.setWidth 32)).setWidth 8 = b := by
  have hvalue : rwValue (b.setWidth 32) = byteValue b := by
    rw [← responseWord_byte]
    exact (responseWord_fields .ok (byteValue b)).2.2
  rw [hvalue, byteValue, BitVec.setWidth_setWidth_of_le _ (by omega), BitVec.setWidth_eq]

theorem rwValue_len (n : Nat) : rwValue ((BitVec.ofNat 24 n).setWidth 32) = BitVec.ofNat 24 n := by
  rw [← responseWord_len]
  exact (responseWord_fields .ok (lenValue n)).2.2

/-! ## `DRAIN` -/

/-- R71: `DRAIN` repeats its `RXPOP` until the answer is `NOVALUE`. -/
theorem after_drain_byte (b : Byte) : MainItem.drain.after (b.setWidth 32) = [.drain] := by
  rw [MainItem.after, rwStatus_byte]
  rfl

theorem after_drain_noValue : MainItem.drain.after 0x20000000#32 = [] := by decide

/-- One pop of `DRAIN` on a channel that holds a byte: MAIN hears it and stays with the item. -/
theorem step_drain_of_nonempty {s : State} {rest : List Turn} {more : List MainItem}
    (hvalid : s.cfg.valid = true) (hne : s.rx.wc ≠ s.rx.rc) (hsched : s.sched = .main :: rest)
    (hprog : s.main.prog = .drain :: more) :
    ∃ t, step s = .next t ∧ t.cfg = s.cfg ∧ t.draw = s.draw ∧ t.rx = s.rx.popped ∧ t.flag = s.flag ∧
      t.sched = rest ∧ t.main.prog = .drain :: more ∧
      t.main.heard = s.main.heard ++ [(s.byteAt .rx (s.rx.rc % s.cfg.cRx)).setWidth 32] := by
  have hstep := step_of_item hvalid hsched hprog (i := .rxpop) rfl rfl rfl
    (exec_rxpop_of_nonempty (s := { s with sched := rest }) hne) rfl
  exact ⟨_, hstep, rfl, rfl, rfl, rfl, rfl, congrArg (· ++ more) (after_drain_byte _), rfl⟩

/-- The last pop of `DRAIN` finds nothing, and the item ends. -/
theorem step_drain_of_empty {s : State} {rest : List Turn} {more : List MainItem}
    (hvalid : s.cfg.valid = true) (hempty : s.rx.wc = s.rx.rc) (hsched : s.sched = .main :: rest)
    (hprog : s.main.prog = .drain :: more) :
    ∃ t, step s = .next t ∧ t.rx = s.rx ∧ t.flag = s.flag ∧ t.sched = rest ∧ t.main.prog = more ∧
      t.main.heard = s.main.heard ++ [0x20000000#32] := by
  have hstep := step_of_item hvalid hsched hprog (i := .rxpop) rfl rfl rfl
    (exec_rxpop_of_empty (s := { s with sched := rest }) hempty) rfl
  exact ⟨_, hstep, rfl, rfl, rfl, congrArg (· ++ more) after_drain_noValue, rfl⟩

/-- `DRAIN` alone hears the bytes of `RX` in order and then `NOVALUE`. -/
theorem run_drain (n : Nat) {s : State} {rest : List Turn} {more : List MainItem} (hinv : s.Inv)
    (hlen : s.rx.wc - s.rx.rc = n) (hsched : s.sched = List.replicate (n + 1) .main ++ rest)
    (hprog : s.main.prog = .drain :: more) :
    ∃ t, Host.Core.run Sys2Proof.core (n + 1) s = .next t ∧ t.main.prog = more ∧ t.sched = rest ∧
      t.rx.rc = t.rx.wc ∧ t.flag = s.flag ∧
      t.main.heard = s.main.heard ++ (s.contents .rx).map (fun b => b.setWidth 32) ++ [0x20000000#32] := by
  have hle : s.rx.rc ≤ s.rx.wc := (hinv.ringOk .rx).1
  induction n generalizing s with
  | zero =>
    have hempty : s.rx.wc = s.rx.rc := by omega
    obtain ⟨t, hstep, hrx, hflag, hrest, hmore, hheard⟩ :=
      step_drain_of_empty hinv.1 hempty hsched hprog
    refine ⟨t, (run_next hstep).trans rfl, hmore, hrest, by rw [hrx, hempty], hflag, ?_⟩
    rw [hheard, contents_of_empty (ch := .rx) hempty, List.map_nil, List.append_nil]
  | succ n ih =>
    have hlt : s.rx.rc < s.rx.wc := by omega
    obtain ⟨u, hstep, hcfg, hdraw, hrx, hflag, hrest, hmore, hheard⟩ :=
      step_drain_of_nonempty hinv.1 hlt.ne' hsched hprog
    have hlen' : u.rx.wc - u.rx.rc = n := by
      rw [hrx]
      change s.rx.wc - (s.rx.rc + 1) = n
      omega
    have hinv' := everyStepKeepsTheRingInvariant s u hinv hstep
    obtain ⟨t, hrun, hend, hrest', hrc, hflag', hheard'⟩ := ih hinv' hlen' hrest hmore (hinv'.ringOk .rx).1
    refine ⟨t, (run_next hstep).trans hrun, hend, hrest', hrc, hflag'.trans hflag, ?_⟩
    rw [hheard', hheard, contents_of_popped (ch := .rx) hcfg hdraw hlt hrx, List.map_cons]
    simp only [List.append_assoc, List.cons_append, List.nil_append]
    rfl

/-- Settles O55: the run of `DRAIN` alone. -/
theorem drainReturnsTheWholeChannel : Obligations.DrainReturnsTheWholeChannel :=
  fun _ _ _ hinv hsched hprog => run_drain _ hinv rfl hsched hprog

/-! ## `HIST` -/

/-- A peek that is answered with a byte is counted (R119). -/
theorem histSeen_byte (seen : List Byte) (b : Byte) : histSeen seen (b.setWidth 32) = seen ++ [b] := by
  rw [histSeen, if_pos (rwStatus_byte b), setWidth_rwValue_byte]

/-- What is still to do after a peek that is answered with a byte, and what it emits. -/
theorem after_histPeeks (i n : Nat) (seen : List Byte) (b : Byte) :
    (MainItem.histPeeks i n seen).after (b.setWidth 32) =
      (if i + 1 < n then [.histPeeks (i + 1) n (seen ++ [b])] else []) ∧
    (MainItem.histPeeks i n seen).emits (b.setWidth 32) =
      (if i + 1 < n then [] else histogram (seen ++ [b])) := by
  rw [MainItem.after, MainItem.emits, histSeen_byte]
  exact ⟨rfl, rfl⟩

/-- One peek of `HIST` below the length: its byte joins those seen, and nothing but MAIN and the response
changes. -/
theorem step_histPeeks {s : State} {rest : List Turn} {more : List MainItem} {i n : Nat} {seen : List Byte}
    (hinv : s.Inv) (hlen : s.rx.wc - s.rx.rc = n) (hin : i < n) (hsched : s.sched = .main :: rest)
    (hprog : s.main.prog = .histPeeks i n seen :: more) (hseen : seen = (s.contents .rx).take i) :
    ∃ t, step s = .next t ∧ BlockEq t s ∧ t.sched = rest ∧
      t.main.prog = (if i + 1 < n then [.histPeeks (i + 1) n ((s.contents .rx).take (i + 1))] else []) ++ more ∧
      t.main.emitted = s.main.emitted ++
        (if i + 1 < n then [] else histogram ((s.contents .rx).take (i + 1))) := by
  have hcap : s.rx.wc - s.rx.rc ≤ s.cfg.cRx := (hinv.ringOk .rx).2.1
  have hfits : s.cfg.cRx < 2 ^ 24 := valid_capacity_lt hinv.1 .rx
  have hwf : (Instr.rxpeek i).wellFormed = true := decide_eq_true (by omega)
  have hstep := step_of_item hinv.1 hsched hprog (i := .rxpeek i) rfl hwf (if_pos hin)
    (exec_rxpeek_of_lt_length (s := { s with sched := _ }) (hlen ▸ hin)) rfl
  have htake : (s.contents .rx).take (i + 1) = seen ++ [s.byteAt .rx ((s.rx.rc + i) % s.cfg.cRx)] := by
    rw [List.take_add_one, getElem?_contents, buf_rx, if_pos (hlen ▸ hin), hseen]
    rfl
  obtain ⟨hafter, hemits⟩ := after_histPeeks i n seen (s.byteAt .rx ((s.rx.rc + i) % s.cfg.cRx))
  rw [htake]
  exact ⟨_, hstep, ⟨rfl, rfl, rfl, rfl, rfl, rfl⟩, rfl, congrArg (· ++ more) hafter,
    congrArg (s.main.emitted ++ ·) hemits⟩

/-- The peeks of `HIST` from index `i` on, alone: in the end the contents are counted. -/
theorem run_histPeeks (k : Nat) {s : State} {rest : List Turn} {more : List MainItem} {i n : Nat}
    (hn : n = i + (k + 1)) (hinv : s.Inv) (hlen : s.rx.wc - s.rx.rc = n)
    (hsched : s.sched = List.replicate (k + 1) .main ++ rest)
    (hprog : s.main.prog = .histPeeks i n ((s.contents .rx).take i) :: more) :
    ∃ t, Host.Core.run Sys2Proof.core (k + 1) s = .next t ∧ t.main.prog = more ∧ t.sched = rest ∧
      t.rx = s.rx ∧ t.tx = s.tx ∧ t.main.emitted = s.main.emitted ++ histogram (s.contents .rx) := by
  induction k generalizing s i with
  | zero =>
    obtain ⟨t, hstep, ⟨-, -, hrx, htx, -⟩, hrest, hmore, hemitted⟩ :=
      step_histPeeks hinv hlen (by omega) hsched hprog rfl
    have hall : (s.contents .rx).length ≤ i + 1 := by
      rw [contents_length]
      exact hlen.trans hn |>.le
    rw [if_neg (by omega)] at hmore hemitted
    rw [List.take_of_length_le hall] at hemitted
    exact ⟨t, (run_next hstep).trans rfl, hmore, hrest, hrx, htx, hemitted⟩
  | succ k ih =>
    obtain ⟨u, hstep, hblock, hrest, hmore, hemitted⟩ :=
      step_histPeeks hinv hlen (by omega) hsched hprog rfl
    have hcontents := hblock.contents .rx
    obtain ⟨-, -, hrx, htx, -⟩ := hblock
    rw [if_pos (by omega)] at hmore hemitted
    rw [List.append_nil] at hemitted
    rw [← hcontents] at hmore
    obtain ⟨t, hrun, hend, hrest', hrx', htx', hemitted'⟩ := ih (i := i + 1) (by omega)
      (everyStepKeepsTheRingInvariant s u hinv hstep) (hrx ▸ hlen) hrest hmore
    refine ⟨t, (run_next hstep).trans hrun, hend, hrest', hrx'.trans hrx, htx'.trans htx, ?_⟩
    rw [hemitted', hemitted, hcontents]

/-- The first command of `HIST` reads the length, and the peeks follow if there is anything to peek at. -/
theorem step_hist {s : State} {rest : List Turn} {more : List MainItem} (hinv : s.Inv)
    (hsched : s.sched = .main :: rest) (hprog : s.main.prog = .hist :: more) :
    ∃ t, step s = .next t ∧ BlockEq t s ∧ t.sched = rest ∧
      t.main.prog = (if s.rx.wc - s.rx.rc = 0 then [] else [.histPeeks 0 (s.rx.wc - s.rx.rc) []]) ++ more ∧
      t.main.emitted = s.main.emitted := by
  have hcap : s.rx.wc - s.rx.rc ≤ s.cfg.cRx := (hinv.ringOk .rx).2.1
  have hfits : s.cfg.cRx < 2 ^ 24 := valid_capacity_lt hinv.1 .rx
  have htoNat : (BitVec.ofNat 24 (s.rx.wc - s.rx.rc)).toNat = s.rx.wc - s.rx.rc :=
    Nat.mod_eq_of_lt (by omega)
  have hzero : BitVec.ofNat 24 (s.rx.wc - s.rx.rc) = 0#24 ↔ s.rx.wc - s.rx.rc = 0 := by
    rw [← BitVec.toNat_inj, htoNat, BitVec.toNat_zero]
  have hstep := step_of_item hinv.1 hsched hprog (i := .len .rx) rfl rfl rfl
    (exec_len .rx { s with sched := rest }) rfl
  refine ⟨_, hstep, ⟨rfl, rfl, rfl, rfl, rfl, rfl⟩, rfl, ?_, List.append_nil _⟩
  dsimp only [buf_rx]
  rw [MainItem.after, rwValue_len, htoNat]
  simp only [hzero]

/-- Settles O54: the length, then as many peeks, each of them counted. -/
theorem histogramCountsTheOccupiedRegion : Obligations.HistogramCountsTheOccupiedRegion := by
  intro s rest more hinv hsched hprog
  obtain ⟨u, hstep, hblock, hrest, hmore, hemitted⟩ := step_hist hinv hsched hprog
  have hcontents := hblock.contents .rx
  obtain ⟨-, -, hrx, htx, -⟩ := hblock
  cases hlen : s.rx.wc - s.rx.rc with
  | zero =>
    have hnil : s.contents .rx = [] := List.length_eq_zero_iff.1 ((contents_length s .rx).trans hlen)
    rw [hlen] at hmore hrest
    refine ⟨u, (run_next hstep).trans rfl, hmore, hrest, hrx, htx, ?_⟩
    rw [hemitted, hnil]
    simp
  | succ k =>
    rw [hlen] at hmore hrest
    obtain ⟨t, hrun, hend, hrest', hrx', htx', hemitted'⟩ := run_histPeeks k (i := 0) (Nat.zero_add _).symm
      (everyStepKeepsTheRingInvariant s u hinv hstep) (hrx ▸ hlen) hrest hmore
    refine ⟨t, (run_next hstep).trans hrun, hend, hrest', hrx'.trans hrx, htx'.trans htx, ?_⟩
    rw [hemitted', hemitted, hcontents]
    rfl

end Sys2Proof.Machine
end
